-- ==== Sys2Proof/Word.lean ====
section
/-! DEFINITION. The words, colours, blocks and texel grids of the CORE (00_scope.md R7, R9, R10; 20_memory.md R41). -/

namespace Sys2Proof

/-- An 8-bit unsigned value: one byte of a block, or one colour channel (R9). -/
abbrev Byte := BitVec 8

/-- A 16-bit RGB565 endpoint word (R120). -/
abbrev Rgb565 := BitVec 16

/-- The 16-bit command word `CMD` (R61). -/
abbrev CmdWord := BitVec 16

/-- A scalar port or scalar result: `IN_A`, `IN_B`, `OUT_VAL` (R22, R25, R53). -/
abbrev Scalar := BitVec 32

/-- `Rgb8`: three 8-bit unsigned channels (R9). -/
structure Rgb8 where
  r : Byte
  g : Byte
  b : Byte
  deriving DecidableEq, Repr

/-- `Rgba8`: four 8-bit unsigned channels (R9). -/
structure Rgba8 where
  r : Byte
  g : Byte
  b : Byte
  a : Byte
  deriving DecidableEq, Repr

/-- `Block16`: 16 bytes, byte `k` the `k`-th as stored (R41). -/
abbrev Block := Vector Byte 16

/-- `Block8`: 8 bytes (R41). -/
abbrev Block8 := Vector Byte 8

/-- 16 RGBA texels, texel `i` at row `i div 4`, column `i mod 4` (R10). -/
abbrev TexelGrid := Vector Rgba8 16

/-- 16 RGB texels in the same order (R10). -/
abbrev ColourGrid := Vector Rgb8 16

/-- The RGB projection of an `Rgba8` (R9). -/
def Rgba8.rgb (c : Rgba8) : Rgb8 := ⟨c.r, c.g, c.b⟩

/-- An `Rgb8` with a given alpha lane. -/
def Rgb8.withAlpha (c : Rgb8) (a : Byte) : Rgba8 := ⟨c.r, c.g, c.b, a⟩

/-- 16 zero bytes: the reset value of every block element (R22). -/
def zeroBlock : Block := Vector.replicate 16 0

/-- 16 × (0,0,0,0): the reset value of `OUT_TEX` (R22). -/
def zeroTexels : TexelGrid := Vector.replicate 16 ⟨0, 0, 0, 0⟩

end Sys2Proof
end

