-- ==== Sys2Proof/Syntax.lean ====
section
/-! DEFINITION. The 21 commands of the opcode map (30_encoding.md R64), one constructor per row of spec/opcode_table.json. -/

namespace Sys2Proof

/-- A command. Its operands arrive on ports (R60), so only the field width `N` of `br.read` and `bw.write` stands in the command itself; it is an unsigned number, not scaled (R62). -/
inductive Instr where
  /-- `nop` (R105). -/
  | nop
  /-- `br.load` (R106). -/
  | brLoad
  /-- `br.read N` (R107). -/
  | brRead (n : Nat)
  /-- `bw.clear` (R108). -/
  | bwClear
  /-- `bw.write N` (R109). -/
  | bwWrite (n : Nat)
  /-- `bw.emit` (R110). -/
  | bwEmit
  /-- `bc1.enc` (R133). -/
  | bc1Enc
  /-- `bc1.dec` (R134). -/
  | bc1Dec
  /-- `bc1.quant` (R135). -/
  | bc1Quant
  /-- `bc1.expand` (R136). -/
  | bc1Expand
  /-- `bc1.table` (R137). -/
  | bc1Table
  /-- `bc1.closest` (R138). -/
  | bc1Closest
  /-- `bc2.enc` (R166). -/
  | bc2Enc
  /-- `bc2.dec` (R167). -/
  | bc2Dec
  /-- `bc7.dec` (R205). -/
  | bc7Dec
  /-- `bc7.mode` (R206). -/
  | bc7Mode
  /-- `bc7.part` (R207). -/
  | bc7Part
  /-- `bc7.anchor` (R208). -/
  | bc7Anchor
  /-- `bc7.pexp` (R209). -/
  | bc7Pexp
  /-- `bc7.interp` (R210). -/
  | bc7Interp
  /-- `bc7.enc` (R211). -/
  | bc7Enc
  deriving DecidableEq, Repr

end Sys2Proof
end

