-- ==== Sys2Proof/WellFormed.lean ====
section
/-! DEFINITION. Which commands a command word can hold: `N` has six bits (30_encoding.md R61, R62). -/

namespace Sys2Proof

/-- The command fits its word: `N` is a value of `CMD[10:5]`, 0 to 63 (R62). Widths 33 to 63 are well formed; performing them ends with BAD_OPERAND. -/
def Instr.wellFormed : Instr → Bool
  | .brRead n => decide (n < 64)
  | .bwWrite n => decide (n < 64)
  | .nop => true
  | .brLoad => true
  | .bwClear => true
  | .bwEmit => true
  | .bc1Enc => true
  | .bc1Dec => true
  | .bc1Quant => true
  | .bc1Expand => true
  | .bc1Table => true
  | .bc1Closest => true
  | .bc2Enc => true
  | .bc2Dec => true
  | .bc7Dec => true
  | .bc7Mode => true
  | .bc7Part => true
  | .bc7Anchor => true
  | .bc7Pexp => true
  | .bc7Interp => true
  | .bc7Enc => true

end Sys2Proof
end

