-- ==== Sys2Proof/Decode.lean ====
section
/-! DEFINITION. The command word (30_encoding.md R61 to R65): its decoder, total on all 65536 words, and its encoder. -/

namespace Sys2Proof

/-- Why a command word is illegal; each ends the command with ILLEGAL_CMD (R63, R65). -/
inductive Reject where
  /-- `RSV != 0` (R63). -/
  | reservedBits (rsv : Nat)
  /-- `OP` is not a row of R64 (R65). -/
  | reservedOp (op : Nat)
  /-- `N != 0` on a command without `N` (R63). -/
  | widthNotAllowed (op n : Nat)
  deriving DecidableEq, Repr

/-- `RSV = CMD[15:11]` (R61). -/
def rsvField (w : CmdWord) : Nat := (w.extractLsb' 11 5).toNat

/-- `N = CMD[10:5]`, unsigned (R61, R62). -/
def nField (w : CmdWord) : Nat := (w.extractLsb' 5 6).toNat

/-- `OP = CMD[4:0]` (R61). -/
def opField (w : CmdWord) : Nat := (w.extractLsb' 0 5).toNat

/-- The commands whose row in R64 has an `N`. -/
def takesWidth (op : Nat) : Bool := op == 0x02 || op == 0x04

/-- The row of the opcode map R64 for `OP`, with the field `N` where the row has one; `none` for the reserved values of R65. -/
def opRow (op n : Nat) : Option Instr :=
  match op with
  | 0x00 => some .nop
  | 0x01 => some .brLoad
  | 0x02 => some (.brRead n)
  | 0x03 => some .bwClear
  | 0x04 => some (.bwWrite n)
  | 0x05 => some .bwEmit
  | 0x08 => some .bc1Enc
  | 0x09 => some .bc1Dec
  | 0x0A => some .bc1Quant
  | 0x0B => some .bc1Expand
  | 0x0C => some .bc1Table
  | 0x0D => some .bc1Closest
  | 0x10 => some .bc2Enc
  | 0x11 => some .bc2Dec
  | 0x18 => some .bc7Dec
  | 0x19 => some .bc7Mode
  | 0x1A => some .bc7Part
  | 0x1B => some .bc7Anchor
  | 0x1C => some .bc7Pexp
  | 0x1D => some .bc7Interp
  | 0x1E => some .bc7Enc
  | _ => none

/-- The decoder: every word is exactly one row of R64, or illegal by R63 or R65. -/
def decode (w : CmdWord) : Except Reject Instr :=
  if rsvField w ≠ 0 then .error (.reservedBits (rsvField w))
  else
    match opRow (opField w) (nField w) with
    | none => .error (.reservedOp (opField w))
    | some i =>
      if nField w ≠ 0 ∧ takesWidth (opField w) = false then
        .error (.widthNotAllowed (opField w) (nField w))
      else .ok i

/-- The `OP` value of a command (R64). -/
def Instr.opcode : Instr → Nat
  | .nop => 0x00
  | .brLoad => 0x01
  | .brRead _ => 0x02
  | .bwClear => 0x03
  | .bwWrite _ => 0x04
  | .bwEmit => 0x05
  | .bc1Enc => 0x08
  | .bc1Dec => 0x09
  | .bc1Quant => 0x0A
  | .bc1Expand => 0x0B
  | .bc1Table => 0x0C
  | .bc1Closest => 0x0D
  | .bc2Enc => 0x10
  | .bc2Dec => 0x11
  | .bc7Dec => 0x18
  | .bc7Mode => 0x19
  | .bc7Part => 0x1A
  | .bc7Anchor => 0x1B
  | .bc7Pexp => 0x1C
  | .bc7Interp => 0x1D
  | .bc7Enc => 0x1E

/-- The `N` field of a command; 0 where its row has no `N` (R61). -/
def Instr.width : Instr → Nat
  | .brRead n => n
  | .bwWrite n => n
  | _ => 0

/-- The encoder: `RSV` = 0, and the word is `OP | (N << 5)` (R61, R64). -/
def encode (i : Instr) : CmdWord := BitVec.ofNat 16 (i.opcode ||| (i.width <<< 5))

/-- The command the decoder reads from the low `nbits` bits of `w`, every bit above them 0, with the opcode table's own bit numbers; `none` where it refuses. A command is one 16-bit word on the port `CMD` (R61), so there is no byte order to lay out. -/
def decodeTableWord (nbits w : Nat) : Option Instr :=
  match decode (BitVec.ofNat 16 (w % 2 ^ nbits)) with
  | .ok i => some i
  | .error _ => none

end Sys2Proof
end

