-- ==== Sys2Proof/Config.lean ====
section
/-! DEFINITION. The implementation parameters of 00_scope.md R6. The two that change results are an argument of the model (the field `params` of State); the fixed ones are constants here. -/

namespace Sys2Proof.Config

/-- `PACK565_VARIANT`: what the RGB565 quantizer does when a quotient overflows its field (R121, D14). -/
inductive Pack565Variant where
  /-- Shift the unmasked quotients, OR them, keep 16 bits: the spec's default. -/
  | orOverlap
  /-- Mask each quotient to its field. -/
  | mask
  deriving DecidableEq, Repr

/-- `BC1_THIRDS`: the integer form of the 2/3 and 1/3 blend (R123, D15). -/
inductive Bc1Thirds where
  /-- Truncate each term: the spec's default. -/
  | perTerm
  /-- Truncate the sum. -/
  | exact
  /-- Divide first, then double. -/
  | divFirst
  deriving DecidableEq, Repr

/-- The parameters an instance is built with and no command reads or changes as state (R6, R28). -/
structure Params where
  pack565 : Pack565Variant
  thirds : Bc1Thirds
  deriving DecidableEq, Repr

/-- The values the spec decides for the hardware where R6 gives a default. -/
def Params.default : Params := { pack565 := .orOverlap, thirds := .perTerm }

/-- `TILE_N` (R6, R73). -/
def tileN : Nat := 4

/-- `NUM_TEXELS` (R6). -/
def numTexels : Nat := 16

/-- `BC1_BLOCK_BYTES` (R6, R73). -/
def bc1BlockBytes : Nat := 8

/-- `BC2_BLOCK_BYTES` (R6, R73). -/
def bc2BlockBytes : Nat := 16

/-- `BC7_BLOCK_BYTES` (R6, R73). -/
def bc7BlockBytes : Nat := 16

/-- `BR_BITS`: the BitReader buffer's length in wire bits (R6, D11). -/
def brBits : Nat := 128

/-- `BR_MAX_N`: the widest BitReader or BitWriter field (R6, R62, D9). -/
def brMaxN : Nat := 32

/-- `BW_BITS`: the BitWriter buffer's length in wire bits (R6, D12). -/
def bwBits : Nat := 128

/-- `MODE_HEADER_BITS`: the BC7 unary header field (R6, R180). -/
def modeHeaderBits : Nat := 8

/-- `BC7_MODE0_PARTITION_BITS` (R6, R191). -/
def mode0PartitionBits : Nat := 4

/-- `BC7_MODE0_COMPONENT_BITS` (R6, R191). -/
def mode0ComponentBits : Nat := 4

/-- `BC7_MODE0_INDEX_BITS` (R6, R194). -/
def mode0IndexBits : Nat := 3

/-- `LATENCY(op)`: OPEN in R6 and R267, so it has no value here; no rule depends on it and no definition reads it (log 10). -/
opaque latency : Nat → Nat

end Sys2Proof.Config
end

