-- ==== Sys2Proof/Machine/State.lean ====
section
/-! DEFINITION. The state of the CORE (10_state.md R22), the host's transactions (R25, R60), and the state after reset (70_reset_and_hazards.md R260). -/

namespace Sys2Proof.Machine

open Sys2Proof

/-- The status codes' names (60_exceptions.md R240); Machine/Flags.lean gives their 3-bit values. -/
inductive Status where
  | ok
  | unsupported
  | illegalCmd
  | badOperand
  | brOverrun
  | bwOverflow
  deriving DecidableEq, Repr

/-- The operand ports of one command transaction (R25, R51 to R53). -/
structure Operands where
  inBlock : Block
  inTex : TexelGrid
  inA : Scalar
  inB : Scalar
  deriving DecidableEq, Repr

/-- A command transaction: the tuple `(CMD, IN_BLOCK, IN_TEX, IN_A, IN_B)` (R60). -/
structure Transaction where
  cmd : CmdWord
  operands : Operands
  deriving DecidableEq, Repr

/-- What the host can do to the CORE between two steps: present one transaction (R60) or assert reset (R260). Reading state is no event, since it has no effect (R26, R50). -/
inductive HostEvent where
  | command (t : Transaction)
  | reset
  deriving DecidableEq, Repr

/-- The nine elements of R22, then the model's own fields. -/
structure State where
  /-- `BR_BUF`, the block the BitReader reads. -/
  brBuf : Block
  /-- `BR_CUR`, wire-bit index of the next bit read, 0..128. -/
  brCur : BitVec 8
  /-- `BW_BUF`, the block the BitWriter builds. -/
  bwBuf : Block
  /-- `BW_CUR`, wire-bit index of the next bit written, 0..128. -/
  bwCur : BitVec 8
  /-- `OUT_BLOCK`, the block result. -/
  outBlock : Block
  /-- `OUT_TEX`, the texel-grid result. -/
  outTex : TexelGrid
  /-- `OUT_VAL`, the scalar result. -/
  outVal : Scalar
  /-- `STATUS`, the 3-bit code of the most recent command. -/
  status : BitVec 3
  /-- `FAULT`, sticky. -/
  fault : Bool
  /-- The instance's parameters, fixed when it is built (R6, R28; log 4). -/
  params : Config.Params
  /-- The operand ports during a command; not kept after it (R25; log 2). -/
  ports : Operands
  /-- The host's transactions and resets not yet presented, next first (R21, R55; log 1). -/
  pending : List HostEvent
  deriving DecidableEq, Repr

/-- What stops the CORE: nothing. A failing command is a next state with its status code and `FAULT` set, and the CORE waits for the next command (R243, R244), so no meaning raises a fault and the type has no constructor (safe; log 8). -/
inductive Fault where
  deriving DecidableEq, Repr

/-- Why the model has no meaning for an instruction. -/
inductive Refusal where
  /-- The instruction has no meaning yet; raised only by an arm of `exec` (safe). No arm raises it: every command has its meaning. -/
  | notModelled (mnemonic : String)
  deriving DecidableEq, Repr

/-- What a meaning answers. -/
abbrev Result := Host.Outcome State Fault Refusal

/-- Operand ports that present nothing: all zero (log 2). -/
def Operands.idle : Operands := { inBlock := zeroBlock, inTex := zeroTexels, inA := 0, inB := 0 }

/-- The state after reset and at power-on: every element of R22 zero (R260, R261), an instance with the default parameters (R6), no operand presented and nothing pending. -/
def State.reset : State where
  brBuf := zeroBlock
  brCur := 0
  bwBuf := zeroBlock
  bwCur := 0
  outBlock := zeroBlock
  outTex := zeroTexels
  outVal := 0
  status := 0
  fault := false
  params := Config.Params.default
  ports := Operands.idle
  pending := []

end Sys2Proof.Machine
end

