-- ==== Sys2Proof/Machine/Flags.lean ====
section
/-! DEFINITION. The CORE's only flags, `STATUS` and `FAULT` (10_state.md R27; 60_exceptions.md R240, R241). -/

namespace Sys2Proof.Machine

open Sys2Proof

/-- The 3-bit status codes (R240); 6 and 7 are never written. -/
def Status.code : Status → BitVec 3
  | .ok => 0
  | .unsupported => 1
  | .illegalCmd => 2
  | .badOperand => 3
  | .brOverrun => 4
  | .bwOverflow => 5

/-- A status other than OK. -/
def Status.isFailure : Status → Bool
  | .ok => false
  | .unsupported => true
  | .illegalCmd => true
  | .badOperand => true
  | .brOverrun => true
  | .bwOverflow => true

/-- Every command writes its code to `STATUS`; a code other than OK also sets `FAULT`, and OK leaves it as it was (R27, R241). -/
def State.recordStatus (st : Status) (s : State) : State :=
  { s with status := st.code, fault := s.fault || st.isFailure }

end Sys2Proof.Machine
end

