-- ==== Sys2Proof/Machine/Ops.lean ====
section
/-! DEFINITION. The operations the meanings share: wire bits (20_memory.md R42), the BitReader and BitWriter functions (40_bitstream.md R100, R102), how a command ends (60_exceptions.md R241, R243), and what the host does between commands (R25, R260). -/

namespace Sys2Proof.Machine

open Sys2Proof

/-- Byte `k` of a block. `k` is below 16 wherever a rule reads a byte; past the end it is 0 (log 7). -/
def byteAt (B : Block) (k : Nat) : Byte := if h : k < 16 then B[k] else 0

/-- `BitAt(B, p)`: wire bit `p` is bit `7 - p mod 8` of byte `p div 8` (R42). -/
def bitAt (B : Block) (p : Nat) : Bool := (byteAt B (p / 8)).getLsbD (7 - p % 8)

/-- A byte with its bit `k` replaced: clear the bit, then OR the new one in (R102). -/
def setByteBit (x : Byte) (k : Nat) (b : Bool) : Byte :=
  (x &&& ~~~(1#8 <<< k)) ||| ((if b then 1#8 else 0#8) <<< k)

/-- A block with its wire bit `p` replaced (R102); a position past the block changes nothing (log 7). -/
def setBit (B : Block) (p : Nat) (b : Bool) : Block :=
  B.setIfInBounds (p / 8) (setByteBit (byteAt B (p / 8)) (7 - p % 8) b)

/-- The value `v` of `BRRead(buf, cur, n)`: each bit read shifts the value left by one, so the last bit read is bit 0 (R100). -/
def brValue (buf : Block) (cur : Nat) : Nat → Nat
  | 0 => 0
  | n + 1 => 2 * brValue buf cur n + (bitAt buf (cur + n)).toNat

/-- `BRRead(buf, cur, n)`: the value and the new cursor (R100). -/
def brRead (buf : Block) (cur n : Nat) : Nat × Nat := (brValue buf cur n, cur + n)

/-- The first `j` turns of the loop of `BWWrite(buf, cur, n, v)`: turn `j` writes bit `n - 1 - j` of `v` at wire bit `cur + j` (R102). -/
def bwBits (buf : Block) (cur n v : Nat) : Nat → Block
  | 0 => buf
  | j + 1 => setBit (bwBits buf cur n v j) (cur + j) (v.testBit (n - 1 - j))

/-- `BWWrite(buf, cur, n, v)`: the new block and cursor (R102). -/
def bwWrite (buf : Block) (cur n v : Nat) : Block × Nat := (bwBits buf cur n v n, cur + n)

/-- A command that completes: `STATUS` is OK and `FAULT` stays as it was (R241). -/
def finish (s : State) : Result := .next (s.recordStatus .ok)

/-- `raise st`, the CORE's only exception entry: `STATUS` gets the code, `FAULT` becomes 1, nothing is saved, no mode changes and nothing else is written; the next command executes normally, so there is no return (R243, R244). -/
def raise (st : Status) (s : State) : Result := .next (s.recordStatus st)

/-- The host presents a transaction: its operands stand on the ports, and `rest` is what it presents later (R25, R60). -/
def State.present (t : Transaction) (rest : List HostEvent) (s : State) : State :=
  { s with ports := t.operands, pending := rest }

/-- After a command its operands are not kept (R25). -/
def State.release (s : State) : State := { s with ports := Operands.idle }

/-- `release` on a step's outcome. -/
def releasePorts : Result → Result
  | .next s => .next s.release
  | .fault f => .fault f
  | .refused r => .refused r

/-- Reset between two commands: every element of R22 takes its reset value; the parameters and what the host presents later are not the CORE's to change (R260). -/
def State.applyReset (rest : List HostEvent) (s : State) : State :=
  { State.reset with params := s.params, pending := rest }

end Sys2Proof.Machine
end

