-- ==== Sys2Proof/Machine/Operands.lean ====
section
/-! DEFINITION. The operand fields of `IN_A` and `IN_B`, the layout of `OUT_VAL`, and the block and texel ports (30_encoding.md R66; 20_memory.md R51 to R53). -/

namespace Sys2Proof.Machine

open Sys2Proof

/-- A colour on a scalar port: `r` in bits 7..0, `g` in 15..8, `b` in 23..16; bits 31..24 are ignored (R53). -/
def colourOf (x : Scalar) : Rgb8 := ⟨x.extractLsb' 0 8, x.extractLsb' 8 8, x.extractLsb' 16 8⟩

/-- A colour packed into `OUT_VAL` the same way, bits 31..24 zero (R53, R66). -/
def packColour (c : Rgb8) : Scalar :=
  BitVec.ofNat 32 (c.r.toNat ||| (c.g.toNat <<< 8) ||| (c.b.toNat <<< 16))

/-- `IN_A[15:0]`: endpoint 0 of `bc1.table` and `bc1.closest`, the word of `bc1.expand` (R66). -/
def endpoint0Field (a : Scalar) : Rgb565 := a.extractLsb' 0 16

/-- `IN_A[31:16]`: endpoint 1 of `bc1.table` and `bc1.closest` (R66). -/
def endpoint1Field (a : Scalar) : Rgb565 := a.extractLsb' 16 16

/-- `IN_A[1:0]`: the subset count `ns` of `bc7.part` and `bc7.anchor` (R66). -/
def subsetCountField (a : Scalar) : Nat := (a.extractLsb' 0 2).toNat

/-- `IN_A[13:8]`: the partition `p` of `bc7.part` and `bc7.anchor` (R66). -/
def partitionField (a : Scalar) : Nat := (a.extractLsb' 8 6).toNat

/-- `IN_A[19:16]`: the texel position of `bc7.part` (R66). -/
def positionField (a : Scalar) : Nat := (a.extractLsb' 16 4).toNat

/-- `IN_A[25:24]`: the subset `s` of `bc7.anchor` (R66). -/
def subsetField (a : Scalar) : Nat := (a.extractLsb' 24 2).toNat

/-- `IN_A[3:0]`: the component `v` of `bc7.pexp` (R66). -/
def componentField (a : Scalar) : Nat := (a.extractLsb' 0 4).toNat

/-- `IN_A[8]`: the P-bit of `bc7.pexp` (R66). -/
def pBitField (a : Scalar) : Nat := (a.extractLsb' 8 1).toNat

/-- `IN_A[7:0]`: the start component `e0` of `bc7.interp` (R66). -/
def startField (a : Scalar) : Byte := a.extractLsb' 0 8

/-- `IN_A[15:8]`: the end component `e1` of `bc7.interp` (R66). -/
def endField (a : Scalar) : Byte := a.extractLsb' 8 8

/-- `IN_A[19:16]`: the index `i` of `bc7.interp` (R66). -/
def indexField (a : Scalar) : Nat := (a.extractLsb' 16 4).toNat

/-- `IN_A[26:24]`: the index width `bits` of `bc7.interp` (R66). -/
def indexWidthField (a : Scalar) : Nat := (a.extractLsb' 24 3).toNat

/-- The RGB projection of a texel port, alpha ignored (R52). -/
def rgbGrid (tex : TexelGrid) : ColourGrid := Vector.ofFn fun i => tex[i].rgb

/-- RGB results on the texel port: alpha lane 0 in every lane (R52). -/
def zeroAlphaGrid (tex : ColourGrid) : TexelGrid := Vector.ofFn fun i => tex[i].withAlpha 0

/-- Bytes 0..7 of a block (R51). -/
def lowHalf (B : Block) : Block8 := Vector.ofFn fun k => B[k.val]

/-- Bytes 8..15 of a block (R71). -/
def highHalf (B : Block) : Block8 := Vector.ofFn fun k => B[8 + k.val]

/-- A 16-byte block from two 8-byte halves, the low bytes first (R51, R71). -/
def joinHalves (lo hi : Block8) : Block := lo ++ hi

/-- 8 zero bytes (R51). -/
def zeroBlock8 : Block8 := Vector.replicate 8 0

/-- A 16-bit word of a BC1 block, little-endian: `B[k] | (B[k+1] << 8)` (R44). -/
def littleEndian16 (lo hi : Byte) : Rgb565 := hi ++ lo

end Sys2Proof.Machine
end

