-- ==== Sys2Proof/Machine/Bc1.lean ====
section
/-! DEFINITION. BC1: quantizer, expander, colour table, index encoder, block encoder and decoder, and their commands (41_bc1.md). -/

namespace Sys2Proof.Machine

open Sys2Proof Sys2Proof.Config

/-- `Pack565(c)` (R121): the quotients by 4, 2 and 4 in their fields; the variants differ in what an overflowing quotient does. -/
def pack565 (v : Pack565Variant) (c : Rgb8) : Rgb565 :=
  let rq := c.r.toNat / 4
  let gq := c.g.toNat / 2
  let bq := c.b.toNat / 4
  match v with
  | .orOverlap => BitVec.ofNat 16 ((rq <<< 11) ||| (gq <<< 5) ||| bq)
  | .mask => BitVec.ofNat 16 (((rq % 32) <<< 11) ||| ((gq % 64) <<< 5) ||| (bq % 32))

/-- `Expand565(u)` (R122): the fields `u[15:11]`, `u[10:5]`, `u[4:0]` (R120) times 4, 2 and 4. -/
def expand565 (u : Rgb565) : Rgb8 where
  r := BitVec.ofNat 8 ((u.extractLsb' 11 5).toNat * 4)
  g := BitVec.ofNat 8 ((u.extractLsb' 5 6).toNat * 2)
  b := BitVec.ofNat 8 ((u.extractLsb' 0 5).toNat * 4)

/-- `Third2(a, b)` (R123), the blend 2/3 a + 1/3 b in the instance's integer form. -/
def third2 (v : Bc1Thirds) (a b : Nat) : Nat :=
  match v with
  | .perTerm => (2 * a) / 3 + b / 3
  | .exact => (2 * a + b) / 3
  | .divFirst => 2 * (a / 3) + b / 3

/-- `Third2` on each channel (R123). -/
def blendColour (v : Bc1Thirds) (a b : Rgb8) : Rgb8 where
  r := BitVec.ofNat 8 (third2 v a.r.toNat b.r.toNat)
  g := BitVec.ofNat 8 (third2 v a.g.toNat b.g.toNat)
  b := BitVec.ofNat 8 (third2 v a.b.toNat b.b.toNat)

/-- `Table(u0, u1)` (R123): always four colours; the endpoints are never compared (R124). -/
def colourTable (v : Bc1Thirds) (u0 u1 : Rgb565) : Vector Rgb8 4 :=
  #v[expand565 u0, expand565 u1,
     blendColour v (expand565 u0) (expand565 u1),
     blendColour v (expand565 u1) (expand565 u0)]

/-- The squared difference of two channels, exact on integers (R125). -/
def sqDiff (x y : Byte) : Nat := ((x.toNat : Int) - (y.toNat : Int)).natAbs ^ 2

/-- `Dist(p, q)` (R125). -/
def colourDist (p q : Rgb8) : Nat := sqDiff p.r q.r + sqDiff p.g q.g + sqDiff p.b q.b

/-- `Closest(T, c)` (R126): entries 1 to 3 in turn replace the best one under strict `<`, so ties go to the lowest index. -/
def closest (T : Vector Rgb8 4) (c : Rgb8) : Fin 4 :=
  [1, 2, 3].foldl (fun best k => if colourDist T[k] c < colourDist T[best] c then k else best) 0

/-- `Key(c) = r + 2g + b` (R127). -/
def key (c : Rgb8) : Nat := c.r.toNat + 2 * c.g.toNat + c.b.toNat

/-- The `mn` of `MinMax(tex)` (R127): the first texel whose key is the minimum. -/
def minTexel (tex : ColourGrid) : Rgb8 :=
  tex.toList.tail.foldl (fun mn c => if key c < key mn then c else mn) tex[0]

/-- The `mx` of `MinMax(tex)` (R127): the first texel whose key is the maximum. -/
def maxTexel (tex : ColourGrid) : Rgb8 :=
  tex.toList.tail.foldl (fun mx c => if key c > key mx then c else mx) tex[0]

/-- `PackRow(idx, r)` (R128): the texel in column 0 in bits 7..6 (R45). -/
def packRow (idx : Vector (Fin 4) 16) (r : Fin 4) : Byte :=
  BitVec.ofNat 8
    ((idx[4 * r.val].val <<< 6) ||| (idx[4 * r.val + 1].val <<< 4) |||
      (idx[4 * r.val + 2].val <<< 2) ||| idx[4 * r.val + 3].val)

/-- The BC1 block of two endpoint words and 16 indices (R70): words little-endian (R44), then the row bytes. -/
def packBc1 (u0 u1 : Rgb565) (idx : Vector (Fin 4) 16) : Block8 :=
  #v[u0.extractLsb' 0 8, u0.extractLsb' 8 8, u1.extractLsb' 0 8, u1.extractLsb' 8 8,
     packRow idx 0, packRow idx 1, packRow idx 2, packRow idx 3]

/-- The 16 indices of `BC1Encode` (R129): each texel against the table of the quantized endpoints. -/
def bc1Indices (T : Vector Rgb8 4) (tex : ColourGrid) : Vector (Fin 4) 16 :=
  Vector.ofFn fun i => closest T tex[i]

/-- `BC1Encode(tex)` (R129): the minimum-key endpoint is `color0`, the maximum-key one `color1`. -/
def bc1Encode (P : Params) (tex : ColourGrid) : Block8 :=
  let u0 := pack565 P.pack565 (minTexel tex)
  let u1 := pack565 P.pack565 (maxTexel tex)
  packBc1 u0 u1 (bc1Indices (colourTable P.thirds u0 u1) tex)

/-- The index of texel `i` in a BC1 block: `(B[4 + i div 4] >> (6 - 2 (i mod 4))) & 3` (R130). -/
def bc1Index (B : Block8) (i : Fin 16) : Fin 4 :=
  ⟨(B[4 + i.val / 4].toNat >>> (6 - 2 * (i.val % 4))) % 4, Nat.mod_lt _ (by decide)⟩

/-- The table of a BC1 block's two endpoint words (R130). -/
def bc1BlockTable (v : Bc1Thirds) (B : Block8) : Vector Rgb8 4 :=
  colourTable v (littleEndian16 B[0] B[1]) (littleEndian16 B[2] B[3])

/-- `BC1Decode(B)` (R130). -/
def bc1Decode (P : Params) (B : Block8) : ColourGrid :=
  Vector.ofFn fun i => (bc1BlockTable P.thirds B)[bc1Index B i]

/-- `bc1.enc` (R133): the block in bytes 0..7, bytes 8..15 zero. -/
def execBc1Enc (s : State) : Result :=
  finish { s with outBlock := joinHalves (bc1Encode s.params (rgbGrid s.ports.inTex)) zeroBlock8 }

/-- `bc1.dec` (R134): bytes 8..15 of `IN_BLOCK` are ignored; the alpha lane is 0. -/
def execBc1Dec (s : State) : Result :=
  finish { s with outTex := zeroAlphaGrid (bc1Decode s.params (lowHalf s.ports.inBlock)) }

/-- `bc1.quant` (R135). -/
def execBc1Quant (s : State) : Result :=
  finish { s with outVal := (pack565 s.params.pack565 (colourOf s.ports.inB)).setWidth 32 }

/-- `bc1.expand` (R136). -/
def execBc1Expand (s : State) : Result :=
  finish { s with outVal := packColour (expand565 (endpoint0Field s.ports.inA)) }

/-- The table on the texel port (R137): lanes 0..3 the four colours with alpha 0, lanes 4..15 zero. -/
def tableGrid (T : Vector Rgb8 4) : TexelGrid :=
  Vector.ofFn fun i => if h : i.val < 4 then T[i.val].withAlpha 0 else ⟨0, 0, 0, 0⟩

/-- `bc1.table` (R137). -/
def execBc1Table (s : State) : Result :=
  finish { s with
    outTex := tableGrid
      (colourTable s.params.thirds (endpoint0Field s.ports.inA) (endpoint1Field s.ports.inA)) }

/-- `bc1.closest` (R138). -/
def execBc1Closest (s : State) : Result :=
  finish { s with
    outVal := BitVec.ofNat 32
      (closest
        (colourTable s.params.thirds (endpoint0Field s.ports.inA) (endpoint1Field s.ports.inA))
        (colourOf s.ports.inB)).val }

end Sys2Proof.Machine
end

