-- ==== Sys2Proof/Machine/Bc2.lean ====
section
/-! DEFINITION. BC2: explicit 4-bit alpha over the BC1 colour path (42_bc2.md). -/

namespace Sys2Proof.Machine

open Sys2Proof Sys2Proof.Config

/-- The stored nibble of an alpha value: `a div 16` (R160). -/
def alphaNibble (a : Byte) : Nat := a.toNat / 16

/-- `AlphaByte`: the even texel's nibble high, the odd one's low (R161). -/
def alphaByte (hi lo : Nat) : Byte := BitVec.ofNat 8 ((hi <<< 4) ||| lo)

/-- The alpha of a stored nibble: `q * 16` (R162). -/
def expandAlpha (q : Nat) : Byte := BitVec.ofNat 8 (q * 16)

/-- The 8 alpha bytes of a BC2 block (R161, R164). -/
def alphaHalf (tex : TexelGrid) : Block8 :=
  Vector.ofFn fun j => alphaByte (alphaNibble tex[2 * j.val].a) (alphaNibble tex[2 * j.val + 1].a)

/-- `BC2Encode(tex)` (R164): the alpha bytes, then the BC1 block of the RGB projection. -/
def bc2Encode (P : Params) (tex : TexelGrid) : Block :=
  joinHalves (alphaHalf tex) (bc1Encode P (rgbGrid tex))

/-- The stored nibble of texel `i` in a BC2 block (R165). -/
def bc2Nibble (B : Block) (i : Fin 16) : Nat :=
  if i.val % 2 = 0 then B[i.val / 2].toNat >>> 4 else B[i.val / 2].toNat % 16

/-- `BC2Decode(B)` (R165). -/
def bc2Decode (P : Params) (B : Block) : TexelGrid :=
  Vector.ofFn fun i => (bc1Decode P (highHalf B))[i].withAlpha (expandAlpha (bc2Nibble B i))

/-- `bc2.enc` (R166). -/
def execBc2Enc (s : State) : Result :=
  finish { s with outBlock := bc2Encode s.params s.ports.inTex }

/-- `bc2.dec` (R167). -/
def execBc2Dec (s : State) : Result :=
  finish { s with outTex := bc2Decode s.params s.ports.inBlock }

end Sys2Proof.Machine
end

