-- ==== Sys2Proof/Machine/Bc7Tables.lean ====
section
/-! DEFINITION. The BC7 ROMs (10_state.md R29): subset counts, partitions, anchors and weights, with the contents 43_bc7.md prints (R182, R184, R186, R188; log 9). -/

namespace Sys2Proof.Machine

open Sys2Proof

/-- `SUBSETS`, mode to subset count (R182). -/
def subsetsRom : List Nat := [3, 2, 3, 2, 1, 1, 1, 2]

/-- `SUBSETS'`: `SUBSETS[m]` for modes 0..7, and 0 for the Invalid tag 8 (R205). -/
def subsetsOf (m : Nat) : Nat := subsetsRom.getD m 0

/-- `PART2` (R184): row `p` as 16 hexadecimal digits, the subset id of position 0 the leftmost digit, as the spec prints it. -/
def part2Rom : List Nat :=
  [0x0011001100110011, 0x0001000100010001, 0x0111011101110111, 0x0001001100110111,
   0x0000000100010011, 0x0011011101111111, 0x0001001101111111, 0x0000000100110111,
   0x0000000000010011, 0x0011011111111111, 0x0000000101111111, 0x0000000000010111,
   0x0001011111111111, 0x0000000011111111, 0x0000111111111111, 0x0000000000001111] ++
  [0x0000100011101111, 0x0111000100000000, 0x0000000010001110, 0x0111001100010000,
   0x0011000100000000, 0x0000100011001110, 0x0000000010001100, 0x0111001100110001,
   0x0011000100010000, 0x0000100010001100, 0x0110011001100110, 0x0011011001101100,
   0x0001011111101000, 0x0000111111110000, 0x0111000110001110, 0x0011100110011100] ++
  [0x0101010101010101, 0x0000111100001111, 0x0101101001011010, 0x0011001111001100,
   0x0011110000111100, 0x0101010110101010, 0x0110100101101001, 0x0101101010100101,
   0x0111001111001110, 0x0001001111001000, 0x0011001001001100, 0x0011101111011100,
   0x0110100110010110, 0x0011110011000011, 0x0110011010011001, 0x0000011001100000] ++
  [0x0100111001000000, 0x0010011100100000, 0x0000001001110010, 0x0000010011100100,
   0x0110110010010011, 0x0011011011001001, 0x0110001110011100, 0x0011100111000110,
   0x0110110011001001, 0x0110001100111001, 0x0111111010000001, 0x0001100011100111,
   0x0000111100110011, 0x0011001111110000, 0x0010001011101110, 0x0100010001110111]

/-- `PART3` (R184), written the same way. -/
def part3Rom : List Nat :=
  [0x0011001102212222, 0x0001001122112221, 0x0000200122112211, 0x0222002200110111,
   0x0000000011221122, 0x0011001100220022, 0x0022002211111111, 0x0011001122112211,
   0x0000000011112222, 0x0000111111112222, 0x0000111122222222, 0x0012001200120012,
   0x0112011201120112, 0x0122012201220122, 0x0011011211221222, 0x0011200122002220] ++
  [0x0001001101121122, 0x0111001120012200, 0x0000112211221122, 0x0022002200221111,
   0x0111011102220222, 0x0001000122212221, 0x0000001101220122, 0x0000110022102210,
   0x0122012200110000, 0x0012001211222222, 0x0110122112210110, 0x0000011012211221,
   0x0022110211020022, 0x0110011020022222, 0x0011012201220011, 0x0000200022112221] ++
  [0x0000000211221222, 0x0222002200120011, 0x0011001200220222, 0x0120012001200120,
   0x0000111122220000, 0x0120120120120120, 0x0120201212010120, 0x0011220011220011,
   0x0011112222000011, 0x0101010122222222, 0x0000000021212121, 0x0022112200221122,
   0x0022001100220011, 0x0220122102201221, 0x0101222222220101, 0x0000212121212121] ++
  [0x0101010101012222, 0x0222011102220111, 0x0002111200021112, 0x0000211221122112,
   0x0222011101110222, 0x0002111211120002, 0x0110011001102222, 0x0000000021122112,
   0x0110011022222222, 0x0022001100110022, 0x0022112211220022, 0x0000000000002112,
   0x0002000100020001, 0x0222122202221222, 0x0101222222222222, 0x0111201122012220]

/-- `ANCHOR2` (R186): subset 1 of a two-subset partition. -/
def anchor2Rom : List Nat :=
  [15, 15, 15, 15, 15, 15, 15, 15, 15, 15, 15, 15, 15, 15, 15, 15] ++
  [15, 2, 8, 2, 2, 8, 8, 15, 2, 8, 2, 2, 8, 8, 2, 2] ++
  [15, 15, 6, 8, 2, 8, 15, 15, 2, 8, 2, 2, 2, 15, 15, 6] ++
  [6, 2, 6, 8, 15, 15, 2, 2, 15, 15, 15, 15, 15, 2, 2, 15]

/-- `ANCHOR3A` (R186): subset 1 of a three-subset partition. -/
def anchor3aRom : List Nat :=
  [3, 3, 15, 15, 8, 3, 15, 15, 8, 8, 6, 6, 6, 5, 3, 3] ++
  [3, 3, 8, 15, 3, 3, 6, 10, 5, 8, 8, 6, 8, 5, 15, 15] ++
  [8, 15, 3, 5, 6, 10, 8, 15, 15, 3, 15, 5, 15, 15, 15, 15] ++
  [3, 15, 5, 5, 5, 8, 5, 10, 5, 10, 8, 13, 15, 12, 3, 3]

/-- `ANCHOR3B` (R186): subset 2 of a three-subset partition. -/
def anchor3bRom : List Nat :=
  [15, 8, 8, 3, 15, 15, 3, 8, 15, 15, 15, 15, 15, 15, 15, 8] ++
  [15, 8, 15, 3, 15, 8, 15, 8, 3, 15, 6, 10, 15, 15, 10, 8] ++
  [15, 3, 15, 10, 10, 8, 9, 10, 6, 15, 8, 15, 3, 6, 6, 8] ++
  [15, 3, 15, 15, 15, 15, 15, 15, 15, 15, 15, 15, 3, 15, 15, 8]

/-- `W2` (R188). -/
def w2Rom : List Nat := [0, 21, 43, 64]

/-- `W3` (R188). -/
def w3Rom : List Nat := [0, 9, 18, 27, 37, 46, 55, 64]

/-- `W4` (R188). -/
def w4Rom : List Nat := [0, 4, 9, 13, 17, 21, 26, 30, 34, 38, 43, 47, 51, 55, 60, 64]

/-- Digit `pos` of a partition row, counted from the left (R184). -/
def rowDigit (row pos : Nat) : Nat := (row >>> (4 * (15 - pos))) % 16

/-- `PART2[p][pos]` (R184). -/
def part2 (p pos : Nat) : Nat := rowDigit (part2Rom.getD p 0) pos

/-- `PART3[p][pos]` (R184). -/
def part3 (p pos : Nat) : Nat := rowDigit (part3Rom.getD p 0) pos

/-- `SubsetOf(ns, p, pos)` (R185). Commands call it with `ns` in 1..3, `p` in 0..63 and `pos` in 0..15 only. -/
def subsetOf (ns p pos : Nat) : Nat :=
  match ns with
  | 2 => part2 p pos
  | 3 => part3 p pos
  | _ => 0

/-- `AnchorOf(ns, p, s)` (R187). Commands call it with `s < ns`, `ns` in 1..3 and `p` in 0..63 only. -/
def anchorOf (ns p s : Nat) : Nat :=
  match ns, s with
  | 2, 1 => anchor2Rom.getD p 0
  | 3, 1 => anchor3aRom.getD p 0
  | 3, 2 => anchor3bRom.getD p 0
  | _, _ => 0

/-- `Anchors(ns, p)`: one position per subset (R187). -/
def anchors (ns p : Nat) : List Nat := (List.range ns).map (anchorOf ns p)

/-- The weight of index `i` in the table of index width `bits` (R188, R189). Commands call it with `bits` in 2..4 and `i < 2^bits` only. -/
def weight (bits i : Nat) : Nat :=
  match bits with
  | 2 => w2Rom.getD i 0
  | 3 => w3Rom.getD i 0
  | 4 => w4Rom.getD i 0
  | _ => 0

end Sys2Proof.Machine
end

