-- ==== Sys2Proof/Machine/Bc7.lean ====
section
/-! DEFINITION. BC7: mode detection, P-bit expansion, interpolation, the Mode0 block decoder, and the commands (43_bc7.md). -/

namespace Sys2Proof.Machine

open Sys2Proof

/-- `ModeOf(B)` (R180): the position of the first 1 bit of the 8-bit header and the header's length; `(8, 8)` for Invalid. -/
def modeOf (B : Block) : Nat × Nat :=
  match (List.range Config.modeHeaderBits).find? (bitAt B) with
  | some k => (k, k + 1)
  | none => (8, 8)

/-- `PExp(v, pb)` (R190). -/
def pExp (v pb : Nat) : Byte := BitVec.ofNat 8 ((v <<< 4) ||| (pb <<< 3) ||| (v >>> 1))

/-- The rounding term of R189: 32 for 2-bit indices only. -/
def roundTerm (bits : Nat) : Nat := if bits = 2 then 32 else 0

/-- `Interp(e0, e1, i, bits)` (R189): the floor of the shift, nothing more (D19). -/
def interp (e0 e1 : Byte) (i bits : Nat) : Byte :=
  BitVec.ofNat 8
    (((64 - weight bits i) * e0.toNat + weight bits i * e1.toNat + roundTerm bits) >>> 6)

/-- `Interp` on each colour channel with one index (R195). -/
def interpColour (e0 e1 : Rgb8) (i bits : Nat) : Rgb8 where
  r := interp e0.r e1.r i bits
  g := interp e0.g e1.g i bits
  b := interp e0.b e1.b i bits

/-- Consecutive `BRRead`s of the given widths by a reader at `cur` (R100, R198): the values in order. -/
def readFields (B : Block) : Nat → List Nat → List Nat
  | _, [] => []
  | cur, w :: ws => (brRead B cur w).1 :: readFields B (brRead B cur w).2 ws

/-- The index field width of texel `i` in a Mode0 block of partition `p`: one bit fewer at an anchor (R194). -/
def mode0IndexWidth (p i : Nat) : Nat :=
  if (anchors 3 p).contains i then Config.mode0IndexBits - 1 else Config.mode0IndexBits

/-- The widths of the Mode0 fields after the partition field, in reading order (R197): 6 R, 6 G, 6 B components, 6 P-bits, 16 indices. -/
def mode0Widths (p : Nat) : List Nat :=
  List.replicate 18 Config.mode0ComponentBits ++ List.replicate 6 1 ++
    (List.range 16).map (mode0IndexWidth p)

/-- Endpoint `e` from the values read (R192): its R, G and B components expanded with its one P-bit. -/
def mode0Endpoint (f : List Nat) (e : Nat) : Rgb8 where
  r := pExp (f.getD e 0) (f.getD (18 + e) 0)
  g := pExp (f.getD (6 + e) 0) (f.getD (18 + e) 0)
  b := pExp (f.getD (12 + e) 0) (f.getD (18 + e) 0)

/-- Texel `i` from the partition and the values read (R195): subset `s` runs from endpoint `2s` to `2s + 1` (R193), an anchor's 2-bit field is used as a 3-bit index (R194), and alpha is 255 (R196). -/
def mode0Texel (p : Nat) (f : List Nat) (i : Nat) : Rgba8 :=
  (interpColour (mode0Endpoint f (2 * subsetOf 3 p i)) (mode0Endpoint f (2 * subsetOf 3 p i + 1))
    (f.getD (24 + i) 0) Config.mode0IndexBits).withAlpha 255

/-- The result of `BC7Decode` (R197). -/
inductive Bc7Result where
  | decoded (mode : Nat) (texels : TexelGrid) (p : Nat)
  | unsupported (mode : Nat)
  deriving DecidableEq, Repr

/-- The Mode0 decoder (R197): a private reader right after the header reads the partition, then the other fields. -/
def decodeMode0 (B : Block) (h : Nat) : Bc7Result :=
  let p := (brRead B h Config.mode0PartitionBits).1
  let f := readFields B (brRead B h Config.mode0PartitionBits).2 (mode0Widths p)
  .decoded 0 (Vector.ofFn fun i => mode0Texel p f i.val) p

/-- `BC7Decode(B)` (R197): Invalid is the all-zero fallback (R183), Modes 1 to 7 are UNSUPPORTED (R204). -/
def bc7Decode (B : Block) : Bc7Result :=
  if (modeOf B).1 = 8 then .decoded 8 zeroTexels 0
  else if (modeOf B).1 ≠ 0 then .unsupported (modeOf B).1
  else decodeMode0 B (modeOf B).2

/-- `bc7.dec` (R205): `OUT_VAL` is the mode tag, the subset count and the partition; a block of Modes 1 to 7 raises UNSUPPORTED. -/
def execBc7Dec (s : State) : Result :=
  match bc7Decode s.ports.inBlock with
  | .unsupported _ => raise .unsupported s
  | .decoded m tex p =>
    finish { s with
      outTex := tex
      outVal := BitVec.ofNat 32 (m ||| (subsetsOf m <<< 4) ||| (p <<< 8)) }

/-- `bc7.mode` (R206): every block has a mode tag and ends with OK. -/
def execBc7Mode (s : State) : Result :=
  finish { s with
    outVal := BitVec.ofNat 32
      ((modeOf s.ports.inBlock).1 ||| (subsetsOf (modeOf s.ports.inBlock).1 <<< 4)) }

/-- `bc7.part` (R207). -/
def execBc7Part (s : State) : Result :=
  if subsetCountField s.ports.inA = 0 then raise .badOperand s
  else
    finish { s with
      outVal := BitVec.ofNat 32
        (subsetOf (subsetCountField s.ports.inA) (partitionField s.ports.inA)
          (positionField s.ports.inA)) }

/-- `bc7.anchor` (R208). -/
def execBc7Anchor (s : State) : Result :=
  if subsetCountField s.ports.inA = 0 ∨ subsetField s.ports.inA ≥ subsetCountField s.ports.inA then
    raise .badOperand s
  else
    finish { s with
      outVal := BitVec.ofNat 32
        (anchorOf (subsetCountField s.ports.inA) (partitionField s.ports.inA)
          (subsetField s.ports.inA)) }

/-- `bc7.pexp` (R209). -/
def execBc7Pexp (s : State) : Result :=
  finish { s with
    outVal := (pExp (componentField s.ports.inA) (pBitField s.ports.inA)).setWidth 32 }

/-- The index operands R210 admits: a width of 2, 3 or 4, and an index that fits it. -/
def indexLegal (bits i : Nat) : Bool := (bits == 2 || bits == 3 || bits == 4) && decide (i < 2 ^ bits)

/-- `bc7.interp` (R210). -/
def execBc7Interp (s : State) : Result :=
  if indexLegal (indexWidthField s.ports.inA) (indexField s.ports.inA) = false then
    raise .badOperand s
  else
    finish { s with
      outVal := (interp (startField s.ports.inA) (endField s.ports.inA) (indexField s.ports.inA)
        (indexWidthField s.ports.inA)).setWidth 32 }

/-- `bc7.enc` (R211): there is no BC7 encoder, so the command always ends with UNSUPPORTED. -/
def execBc7Enc (s : State) : Result := raise .unsupported s

end Sys2Proof.Machine
end

