-- ==== Sys2Proof/Machine/BitStream.lean ====
section
/-! DEFINITION. `nop` and the bit-stream commands (40_bitstream.md R105 to R110). -/

namespace Sys2Proof.Machine

open Sys2Proof

/-- `nop` (R105): only `STATUS` is written. -/
def execNop (s : State) : Result := finish s

/-- `br.load` (R106): the BitReader's block from `IN_BLOCK`, its cursor to 0. -/
def execBrLoad (s : State) : Result := finish { s with brBuf := s.ports.inBlock, brCur := 0 }

/-- `br.read N` (R107): the range of `N` is checked before the cursor bound (R242). -/
def execBrRead (n : Nat) (s : State) : Result :=
  if n > Config.brMaxN then raise .badOperand s
  else if s.brCur.toNat + n > Config.brBits then raise .brOverrun s
  else
    finish { s with
      outVal := BitVec.ofNat 32 (brRead s.brBuf s.brCur.toNat n).1
      brCur := BitVec.ofNat 8 (brRead s.brBuf s.brCur.toNat n).2 }

/-- `bw.clear` (R108). -/
def execBwClear (s : State) : Result := finish { s with bwBuf := zeroBlock, bwCur := 0 }

/-- `bw.write N` (R109): appends the low `N` bits of `IN_A`; the range of `N` is checked before the cursor bound (R242). -/
def execBwWrite (n : Nat) (s : State) : Result :=
  if n > Config.brMaxN then raise .badOperand s
  else if s.bwCur.toNat + n > Config.bwBits then raise .bwOverflow s
  else
    finish { s with
      bwBuf := (bwWrite s.bwBuf s.bwCur.toNat n s.ports.inA.toNat).1
      bwCur := BitVec.ofNat 8 (bwWrite s.bwBuf s.bwCur.toNat n s.ports.inA.toNat).2 }

/-- `bw.emit` (R110). -/
def execBwEmit (s : State) : Result := finish { s with outBlock := s.bwBuf }

end Sys2Proof.Machine
end

