-- ==== Sys2Proof/Machine/Dispatch.lean ====
section
/-! DEFINITION. Which meaning each command has (30_encoding.md R64). -/

namespace Sys2Proof.Machine

open Sys2Proof

def exec (i : Instr) (s : State) : Host.Outcome State Fault Refusal :=
  match i with
  -- bit-stream units
  | .nop => Sys2Proof.Machine.execNop s
  | .brLoad => Sys2Proof.Machine.execBrLoad s
  | .brRead n => Sys2Proof.Machine.execBrRead n s
  | .bwClear => Sys2Proof.Machine.execBwClear s
  | .bwWrite n => Sys2Proof.Machine.execBwWrite n s
  | .bwEmit => Sys2Proof.Machine.execBwEmit s
  -- BC1
  | .bc1Enc => Sys2Proof.Machine.execBc1Enc s
  | .bc1Dec => Sys2Proof.Machine.execBc1Dec s
  | .bc1Quant => Sys2Proof.Machine.execBc1Quant s
  | .bc1Expand => Sys2Proof.Machine.execBc1Expand s
  | .bc1Table => Sys2Proof.Machine.execBc1Table s
  | .bc1Closest => Sys2Proof.Machine.execBc1Closest s
  -- BC2
  | .bc2Enc => Sys2Proof.Machine.execBc2Enc s
  | .bc2Dec => Sys2Proof.Machine.execBc2Dec s
  -- BC7
  | .bc7Dec => Sys2Proof.Machine.execBc7Dec s
  | .bc7Mode => Sys2Proof.Machine.execBc7Mode s
  | .bc7Part => Sys2Proof.Machine.execBc7Part s
  | .bc7Anchor => Sys2Proof.Machine.execBc7Anchor s
  | .bc7Pexp => Sys2Proof.Machine.execBc7Pexp s
  | .bc7Interp => Sys2Proof.Machine.execBc7Interp s
  | .bc7Enc => Sys2Proof.Machine.execBc7Enc s

end Sys2Proof.Machine
end

