-- ==== Sys2Proof/Machine/Step.lean ====
section
/-! DEFINITION. One step: the next thing the host does (30_encoding.md R60, R65; 70_reset_and_hazards.md R260). -/

namespace Sys2Proof.Machine

open Sys2Proof

/-- Perform a command word on the presented operands: the decoded command, or ILLEGAL_CMD for a word that is no row of the opcode map (R60, R63, R65). -/
def perform (w : CmdWord) (s : State) : Result :=
  match decode w with
  | .ok i => exec i s
  | .error _ => raise .illegalCmd s

/-- One step. A transaction is performed whole and its operands are then let go (R5, R25); a reset puts the CORE in its reset state (R260); with nothing presented the CORE waits and keeps its state (R243, R253; log 1). -/
def step (s : State) : Host.Outcome State Fault Refusal :=
  match s.pending with
  | [] => .next s
  | .reset :: rest => .next (s.applyReset rest)
  | .command t :: rest => releasePorts (perform t.cmd (s.present t rest))

/-- `s` with the command word `w` (its low `nbits` bits, 0 above) as the next one presented: it replaces the command word of a transaction that is next already, keeping that transaction's operands, and otherwise is put first with all-zero operands (log 5). -/
def State.withFetchWord (s : State) (nbits w : Nat) : State :=
  match s.pending with
  | .command t :: rest =>
    { s with pending := .command { t with cmd := BitVec.ofNat 16 (w % 2 ^ nbits) } :: rest }
  | events =>
    { s with
      pending := .command { cmd := BitVec.ofNat 16 (w % 2 ^ nbits), operands := Operands.idle } :: events }

end Sys2Proof.Machine
end

