-- ==== Sys2Proof/Safety.lean ====
section
/-! DEFINITION. The words claims use: the invariant of the CORE's state (10_state.md R22, R24), arithmetic readings of the spec's wire bits, fields and tables that do not go through the meanings' own code, and the host's sequences of commands. -/

namespace Sys2Proof.Safety

open Sys2Proof Sys2Proof.Machine

/-- What holds in every state a run from reset reaches: the cursors stay in 0..128 and the unwritten tail of `BW_BUF` is 0 (R24); `STATUS` holds one of the six codes (R240); and a code other than OK stands beside `FAULT` = 1 (R241). -/
structure StateInv (s : State) : Prop where
  brCur_le : s.brCur.toNat ≤ 128
  bwCur_le : s.bwCur.toNat ≤ 128
  tail_zero : ∀ p, s.bwCur.toNat ≤ p → p < 128 → bitAt s.bwBuf p = false
  status_le : s.status.toNat ≤ 5
  failed_fault : s.status ≠ 0 → s.fault = true

/-- The state a result holds, if it is a next state. -/
def nextState? : Result → Option State
  | .next s => some s
  | .fault _ => none
  | .refused _ => none

/-- `RSV != 0`, or `N != 0` on an `OP` without `N` (R63), by arithmetic on the word. -/
def IllegalFields (w : CmdWord) : Prop :=
  w.toNat / 2 ^ 11 ≠ 0 ∨
    (w.toNat / 2 ^ 5 % 2 ^ 6 ≠ 0 ∧ w.toNat % 2 ^ 5 ≠ 0x02 ∧ w.toNat % 2 ^ 5 ≠ 0x04)

/-- `w` is the one command word that is the command `i` (R64), and a word with the same `OP` and a nonzero reserved field ends with ILLEGAL_CMD and does nothing else (R63): the encoding and the ILLEGAL_CMD exception of a command's rule. -/
def CommandWord (i : Instr) (w : CmdWord) : Prop :=
  (∀ v : CmdWord, decode v = .ok i ↔ v = w) ∧
    ∀ (v : CmdWord) (s : State), v.toNat % 2 ^ 5 = w.toNat % 2 ^ 5 → IllegalFields v →
      perform v s = .next { s with status := 2, fault := true }

/-- The `OP` values R65 reserves. -/
def reservedOps : List Nat :=
  [0x06, 0x07, 0x0E, 0x0F, 0x12, 0x13, 0x14, 0x15, 0x16, 0x17, 0x1F]

/-- The word's `OP` is reserved (R65). -/
def ReservedOp (w : CmdWord) : Prop := w.toNat % 2 ^ 5 ∈ reservedOps

/-- `BitAt(B, p)` as the number R42 writes. -/
def wireBit (B : Block) (p : Nat) : Nat := (B.toList.getD (p / 8) 0).toNat / 2 ^ (7 - p % 8) % 2

/-- The value of the `n`-bit field at wire bit `p`: the sum R43 writes. -/
def wireField (B : Block) (p n : Nat) : Nat :=
  ∑ j ∈ Finset.range n, wireBit B (p + j) * 2 ^ (n - 1 - j)

/-- The squared distance of two colours, on integers (R125). -/
def squaredDistance (p q : Rgb8) : Int :=
  ((p.r.toNat : Int) - q.r.toNat) ^ 2 + ((p.g.toNat : Int) - q.g.toNat) ^ 2 +
    ((p.b.toNat : Int) - q.b.toNat) ^ 2

/-- `k` is the lowest index of a table entry nearest to `c` (R126). -/
def IsNearest (T : Vector Rgb8 4) (c : Rgb8) (k : Nat) : Prop :=
  ∃ h : k < 4,
    (∀ j : Fin 4, squaredDistance T[k] c ≤ squaredDistance T[j] c) ∧
    (∀ j : Fin 4, j.val < k → squaredDistance T[k] c < squaredDistance T[j] c)

/-- `Key(c)` (R127). -/
def colourKey (c : Rgba8) : Nat := c.r.toNat + 2 * c.g.toNat + c.b.toNat

/-- Texel `m` is the first one whose key is the minimum (R127). -/
def IsFirstMin (tex : TexelGrid) (m : Fin 16) : Prop :=
  (∀ j : Fin 16, colourKey tex[m] ≤ colourKey tex[j]) ∧
    (∀ j : Fin 16, j < m → colourKey tex[m] < colourKey tex[j])

/-- Texel `m` is the first one whose key is the maximum (R127). -/
def IsFirstMax (tex : TexelGrid) (m : Fin 16) : Prop :=
  (∀ j : Fin 16, colourKey tex[j] ≤ colourKey tex[m]) ∧
    (∀ j : Fin 16, j < m → colourKey tex[j] < colourKey tex[m])

/-- The 2-bit index of texel `i` in a BC1 row byte: column 0 in the top pair (R45). -/
def rowPair (row : Byte) (column : Nat) : Nat := row.toNat / 4 ^ (3 - column) % 4

/-- The stored width of the Mode0 index of texel `i` in partition `p` (R194), by the anchors of R186 and R187. -/
def mode0IndexBits (p i : Nat) : Nat :=
  if i = 0 ∨ i = anchor3aRom.getD p 0 ∨ i = anchor3bRom.getD p 0 then 2 else 3

/-- `start(i)` of R194. -/
def mode0IndexStart (p i : Nat) : Nat := 83 + ∑ j ∈ Finset.range i, mode0IndexBits p j

/-- Component `e` of the plane that starts at wire bit `plane`, expanded with P-bit `e` (R190, R191, R192). -/
def mode0Component (B : Block) (plane e : Nat) : Nat :=
  16 * wireField B (plane + 4 * e) 4 + 8 * wireBit B (77 + e) + wireField B (plane + 4 * e) 4 / 2

/-- The Mode0 channel of texel `i` in the plane that starts at wire bit `plane` (R193, R194, R195). -/
def mode0Channel (B : Block) (plane i : Nat) : Nat :=
  let p := wireField B 1 4
  let s := part3 p i
  let w := w3Rom.getD (wireField B (mode0IndexStart p i) (mode0IndexBits p i)) 0
  ((64 - w) * mode0Component B plane (2 * s) + w * mode0Component B plane (2 * s + 1)) / 64

/-- The statuses other than ILLEGAL_CMD each command can end with (R251), as codes of R240. -/
def statusesOf : Instr → List Nat
  | .nop => [0]
  | .brLoad => [0]
  | .brRead _ => [0, 3, 4]
  | .bwClear => [0]
  | .bwWrite _ => [0, 3, 5]
  | .bwEmit => [0]
  | .bc1Enc => [0]
  | .bc1Dec => [0]
  | .bc1Quant => [0]
  | .bc1Expand => [0]
  | .bc1Table => [0]
  | .bc1Closest => [0]
  | .bc2Enc => [0]
  | .bc2Dec => [0]
  | .bc7Dec => [0, 1]
  | .bc7Mode => [0]
  | .bc7Part => [0, 3]
  | .bc7Anchor => [0, 3]
  | .bc7Pexp => [0]
  | .bc7Interp => [0, 3]
  | .bc7Enc => [1]

/-- The operands `o` and `o'` agree in everything command `i` reads (R49, R51, R52, R53, R66). -/
def OperandsAgree (i : Instr) (o o' : Operands) : Prop :=
  let a := o.inA.toNat
  let a' := o'.inA.toNat
  match i with
  | .nop => True
  | .brLoad => o.inBlock = o'.inBlock
  | .brRead _ => True
  | .bwClear => True
  | .bwWrite n => a % 2 ^ n = a' % 2 ^ n
  | .bwEmit => True
  | .bc1Enc => ∀ k : Fin 16, o.inTex[k].rgb = o'.inTex[k].rgb
  | .bc1Dec => ∀ k : Fin 16, k.val < 8 → o.inBlock[k] = o'.inBlock[k]
  | .bc1Quant => o.inB.toNat % 2 ^ 24 = o'.inB.toNat % 2 ^ 24
  | .bc1Expand => a % 2 ^ 16 = a' % 2 ^ 16
  | .bc1Table => a = a'
  | .bc1Closest => a = a' ∧ o.inB.toNat % 2 ^ 24 = o'.inB.toNat % 2 ^ 24
  | .bc2Enc => o.inTex = o'.inTex
  | .bc2Dec => o.inBlock = o'.inBlock
  | .bc7Dec => o.inBlock = o'.inBlock
  | .bc7Mode => o.inBlock[0] = o'.inBlock[0]
  | .bc7Part =>
    a % 2 ^ 2 = a' % 2 ^ 2 ∧ a / 2 ^ 8 % 2 ^ 6 = a' / 2 ^ 8 % 2 ^ 6 ∧
      a / 2 ^ 16 % 2 ^ 4 = a' / 2 ^ 16 % 2 ^ 4
  | .bc7Anchor =>
    a % 2 ^ 2 = a' % 2 ^ 2 ∧ a / 2 ^ 8 % 2 ^ 6 = a' / 2 ^ 8 % 2 ^ 6 ∧
      a / 2 ^ 24 % 2 ^ 2 = a' / 2 ^ 24 % 2 ^ 2
  | .bc7Pexp => a % 2 ^ 4 = a' % 2 ^ 4 ∧ a / 2 ^ 8 % 2 = a' / 2 ^ 8 % 2
  | .bc7Interp => a % 2 ^ 20 = a' % 2 ^ 20 ∧ a / 2 ^ 24 % 2 ^ 3 = a' / 2 ^ 24 % 2 ^ 3
  | .bc7Enc => True

/-- The host presents command `i` with these operands. -/
def present (i : Instr) (o : Operands) : HostEvent := .command { cmd := encode i, operands := o }

/-- `bw.write n` for each field `(n, v)` in turn, `v` on `IN_A` (R104). -/
def writeFields (fs : List (Nat × Scalar)) : List HostEvent :=
  fs.map fun f => present (.bwWrite f.1) { Operands.idle with inA := f.2 }

/-- `br.read n` for each field `(n, v)` in turn (R104). -/
def readBack (fs : List (Nat × Scalar)) : List HostEvent :=
  fs.map fun f => present (.brRead f.1) Operands.idle

end Sys2Proof.Safety
end

