-- ==== Sys2Proof/Certificates/Slice0/Obligations.lean ====
section
/-! DEFINITION. The statements for the provers: what the rules of spec/ say the CORE's commands and the machine do. -/

open Sys2Proof Sys2Proof.Machine Sys2Proof.Safety

/-! ### The command word -/

/-- 30_encoding.md R61, R62, R64: the word of every well-formed command decodes to that command, with every `N` the word admits. -/
def Obligations.DecodeOfEncodeIsTheCommand : Prop :=
  ∀ i : Instr, i.wellFormed = true → decode (encode i) = .ok i

/-- 30_encoding.md R61, R64, R65: a word that decodes is the word of the one well-formed command it decodes to, so no bit of it is ignored. -/
def Obligations.DecodedWordIsItsEncoding : Prop :=
  ∀ (w : CmdWord) (i : Instr), decode w = .ok i → i.wellFormed = true ∧ encode i = w

/-- Words written out bit by bit from 30_encoding.md R61 and R64, one or two of each family (R67's example `br.read 4` = 0x0082 among them). -/
def Obligations.WrittenOutWordsDecode : Prop :=
  decode 0b00000_000000_00000#16 = .ok .nop ∧
  decode 0b00000_000100_00010#16 = .ok (.brRead 4) ∧
  decode 0b00000_100000_00100#16 = .ok (.bwWrite 32) ∧
  decode 0b00000_000000_01000#16 = .ok .bc1Enc ∧
  decode 0b00000_000000_10001#16 = .ok .bc2Dec ∧
  decode 0b00000_000000_11000#16 = .ok .bc7Dec ∧
  decode 0b00000_000000_11110#16 = .ok .bc7Enc

/-- 30_encoding.md R63: a word with `RSV != 0`, or `N != 0` on an `OP` without `N`, ends with ILLEGAL_CMD and performs nothing else. -/
def Obligations.NonzeroReservedFieldsAreIllegal : Prop :=
  ∀ (w : CmdWord) (s : State), IllegalFields w →
    perform w s = .next { s with status := 2, fault := true }

/-- 30_encoding.md R65: a word with a reserved `OP` ends with ILLEGAL_CMD and does nothing else; and every one of the 65536 words is exactly one row of R64, or illegal by R63 or R65, and then no row. -/
def Obligations.ReservedOpsAreIllegalAndDecodingIsTotal : Prop :=
  (∀ (w : CmdWord) (s : State), ReservedOp w →
    perform w s = .next { s with status := 2, fault := true }) ∧
  (∀ w : CmdWord, (∃! i : Instr, decode w = .ok i) ↔ ¬ (IllegalFields w ∨ ReservedOp w))

/-! ### The step -/

/-- 30_encoding.md R60: with a transaction next, the step is its decoded command at the state with the operands on the ports and the rest of the host's sequence pending, or ILLEGAL_CMD for a word that decodes to none; afterwards the ports hold nothing (the ports' zero between commands is the model's convention, log 2). -/
def Obligations.StepRunsTheDecodedCommand : Prop :=
  ∀ (s : State) (c : Transaction) (rest : List HostEvent), s.pending = .command c :: rest →
    (∀ (i : Instr) (t : State), decode c.cmd = .ok i →
      exec i { s with ports := c.operands, pending := rest } = .next t →
      step s = .next { t with ports := Operands.idle }) ∧
    (∀ r : Reject, decode c.cmd = .error r →
      step s = .next { s with
        status := 2, fault := true, ports := Operands.idle, pending := rest })

/-- 60_exceptions.md R243, R244, R253: no state stops the CORE. Every command and every step answers a next state, whatever `STATUS` and `FAULT` hold. -/
def Obligations.EveryCommandAndStepAnswersANextState : Prop :=
  (∀ (i : Instr) (s : State), ∃ t : State, exec i s = .next t) ∧
  (∀ s : State, ∃ t : State, step s = .next t)

/-- 60_exceptions.md R243, R253: with nothing presented the CORE waits and every state element holds its value (the model's idle step, log 1). -/
def Obligations.WaitingKeepsTheState : Prop :=
  ∀ s : State, s.pending = [] → step s = .next s

/-- 70_reset_and_hazards.md R260: reset between commands sets every element of R22 to zero and leaves the parameters alone. That a reset stands in the host's sequence of events is the model's reading (log 3). -/
def Obligations.ResetZeroesEveryElement : Prop :=
  ∀ (s : State) (rest : List HostEvent), s.pending = .reset :: rest →
    ∃ t : State, step s = .next t ∧
      (∀ k : Fin 16, t.brBuf[k] = 0 ∧ t.bwBuf[k] = 0 ∧ t.outBlock[k] = 0 ∧
        t.outTex[k] = ⟨0, 0, 0, 0⟩) ∧
      t.brCur = 0 ∧ t.bwCur = 0 ∧ t.outVal = 0 ∧ t.status = 0 ∧ t.fault = false ∧
      t.params = s.params ∧ t.pending = rest

/-- 70_reset_and_hazards.md R260, R261: at power-on every element of R22 holds its reset value, zero. -/
def Obligations.PowerOnElementsAreZero : Prop :=
  (∀ k : Fin 16, State.reset.brBuf[k] = 0 ∧ State.reset.bwBuf[k] = 0 ∧
    State.reset.outBlock[k] = 0 ∧ State.reset.outTex[k] = ⟨0, 0, 0, 0⟩) ∧
  State.reset.brCur = 0 ∧ State.reset.bwCur = 0 ∧ State.reset.outVal = 0 ∧
  State.reset.status = 0 ∧ State.reset.fault = false

/-- 10_state.md R25, R31: operands are parameters of one command. What the ports held before a transaction has no effect on its step, and after it they are not kept (zero: the model's convention, log 2). -/
def Obligations.OperandsLastOneCommand : Prop :=
  ∀ (s : State) (c : Transaction) (rest : List HostEvent) (o : Operands),
    s.pending = .command c :: rest →
    step { s with ports := o } = step s ∧
    ∀ t : State, step s = .next t → t.ports = Operands.idle ∧ t.pending = rest

/-! ### The invariant -/

/-- 10_state.md R22, R24: the invariant holds after reset. -/
def Obligations.ResetStateIsInvariant : Prop := StateInv State.reset

/-- 10_state.md R24; 60_exceptions.md R240, R241: every step keeps the cursor bounds, the zero tail of `BW_BUF`, a legal status code, and `FAULT` beside a failed status. -/
def Obligations.EveryStepKeepsTheInvariant : Prop :=
  ∀ s t : State, StateInv s → step s = .next t → StateInv t

/-! ### Status and fault -/

/-- 60_exceptions.md R241: a command that does not end with OK sets `FAULT`, one that does leaves it; only reset clears it; and `FAULT` = 1 after a run that began with 0 means some command of the run did not complete. -/
def Obligations.FaultIsStickyUntilReset : Prop :=
  (∀ (s t : State) (c : Transaction) (rest : List HostEvent),
    s.pending = .command c :: rest → step s = .next t →
    (t.status ≠ 0 → t.fault = true) ∧ (t.status = 0 → t.fault = s.fault)) ∧
  (∀ s t : State, step s = .next t → s.fault = true → t.fault = false →
    ∃ rest : List HostEvent, s.pending = .reset :: rest) ∧
  (∀ (k : Nat) (s t : State), s.fault = false → Sys2Proof.core.run k s = .next t → t.fault = true →
    ∃ (j : Nat) (u v : State) (c : Transaction) (rest : List HostEvent),
      j < k ∧ Sys2Proof.core.run j s = .next u ∧ u.pending = .command c :: rest ∧
      step u = .next v ∧ v.status ≠ 0)

/-- 60_exceptions.md R243: a command that ends with a status other than OK writes `STATUS` and sets `FAULT`, and writes nothing else. -/
def Obligations.FailedCommandWritesOnlyStatusAndFault : Prop :=
  ∀ (w : CmdWord) (s t : State), perform w s = .next t → t.status ≠ 0 →
    t = { s with status := t.status, fault := true }

/-- 60_exceptions.md R251: the statuses each command can end with. -/
def Obligations.CommandsEndWithTheirListedStatuses : Prop :=
  ∀ (i : Instr) (s t : State), exec i s = .next t → t.status.toNat ∈ statusesOf i

/-- 60_exceptions.md R242: the command word is checked before any operand, an operand's range before the cursor bound; and the pairs whose order could not matter do not meet in one command. -/
def Obligations.CausesHaveTheirPriority : Prop :=
  (∀ (w : CmdWord) (s : State),
    (IllegalFields w ∨ ReservedOp w →
      perform w s = .next { s with status := 2, fault := true }) ∧
    (∀ n : Nat, decode w = .ok (.brRead n) ∨ decode w = .ok (.bwWrite n) → 32 < n →
      perform w s = .next { s with status := 3, fault := true }) ∧
    (∀ n : Nat, decode w = .ok (.brRead n) → n ≤ 32 → 128 < s.brCur.toNat + n →
      perform w s = .next { s with status := 4, fault := true }) ∧
    (∀ n : Nat, decode w = .ok (.bwWrite n) → n ≤ 32 → 128 < s.bwCur.toNat + n →
      perform w s = .next { s with status := 5, fault := true })) ∧
  (∀ (i : Instr) (s s' t t' : State), exec i s = .next t → exec i s' = .next t' →
    ¬ (t.status = 4 ∧ t'.status = 5) ∧
    (t.status = 1 → t'.status ≠ 3 ∧ t'.status ≠ 4 ∧ t'.status ≠ 5))

/-- 10_state.md R27: every command, an illegal word included, writes `STATUS`; one that does not end with OK sets `FAULT`; and no command reads either: whatever they held before, the outcome is the same but for a `FAULT` already set. -/
def Obligations.NoCommandReadsStatusOrFault : Prop :=
  ∀ (w : CmdWord) (s t : State) (st : BitVec 3) (f : Bool), perform w s = .next t →
    perform w { s with status := st, fault := f } =
      .next { t with fault := f || decide (t.status ≠ 0) }

/-! ### What each element may be written by, and what results depend on -/

/-- 10_state.md R22, R23: each element keeps its value under every command that R22 does not list against it, `FAULT` under every command that ends with OK, and everything but `STATUS` and `FAULT` under one that does not. -/
def Obligations.ElementsAreWrittenOnlyByTheirCommands : Prop :=
  ∀ (i : Instr) (s t : State), exec i s = .next t →
    (i ≠ .brLoad → t.brBuf = s.brBuf) ∧
    (i ≠ .brLoad → (∀ n, i ≠ .brRead n) → t.brCur = s.brCur) ∧
    (i ≠ .bwClear → (∀ n, i ≠ .bwWrite n) → t.bwBuf = s.bwBuf ∧ t.bwCur = s.bwCur) ∧
    (i ∉ [.bwEmit, .bc1Enc, .bc2Enc] → t.outBlock = s.outBlock) ∧
    (i ∉ [.bc1Dec, .bc1Table, .bc2Dec, .bc7Dec] → t.outTex = s.outTex) ∧
    ((∀ n, i ≠ .brRead n) →
      i ∉ [.bc1Quant, .bc1Expand, .bc1Closest, .bc7Dec, .bc7Mode, .bc7Part, .bc7Anchor, .bc7Pexp,
        .bc7Interp] → t.outVal = s.outVal) ∧
    (t.status = 0 → t.fault = s.fault) ∧
    (t.status ≠ 0 → t = { s with status := t.status, fault := t.fault }) ∧
    t.params = s.params ∧ t.ports = s.ports ∧ t.pending = s.pending

/-- 10_state.md R31: what `bc1.enc`, `bc1.dec`, `bc2.enc`, `bc2.dec` and `bc7.dec` give depends only on that command's operands, the ROMs and the instance's parameters, never on what earlier commands left. -/
def Obligations.CodecResultsDependOnlyOnOperands : Prop :=
  ∀ (i : Instr) (s s' t t' : State), s.ports = s'.ports → s.params = s'.params →
    exec i s = .next t → exec i s' = .next t' →
    (i ∈ [.bc1Enc, .bc2Enc] → t.status = t'.status ∧ t.outBlock = t'.outBlock) ∧
    (i ∈ [.bc1Dec, .bc2Dec] → t.status = t'.status ∧ t.outTex = t'.outTex) ∧
    (i = .bc7Dec → t.status = t'.status ∧
      (t.status = 0 → t.outTex = t'.outTex ∧ t.outVal = t'.outVal))

/-- 20_memory.md R51, R52, R53; 30_encoding.md R60, R66: operand bits a command does not name are ignored. Operands that agree in what the command reads give the same next state (but for the ports themselves). -/
def Obligations.UnnamedOperandBitsAreIgnored : Prop :=
  ∀ (i : Instr) (s t : State) (o o' : Operands), OperandsAgree i o o' →
    exec i { s with ports := o } = .next t → exec i { s with ports := o' } = .next { t with ports := o' }

/-- 10_state.md R28: no command, illegal word, reset or idle step changes the parameters. -/
def Obligations.ParametersAreFixed : Prop :=
  ∀ s t : State, step s = .next t → t.params = s.params

/-- 20_memory.md R50: every command other than `br.read` and `bw.write`, issued again with the same operands, leaves the state as it is. -/
def Obligations.OtherCommandsAreIdempotent : Prop :=
  ∀ (i : Instr) (s t : State), (∀ n, i ≠ .brRead n) → (∀ n, i ≠ .bwWrite n) →
    exec i s = .next t → exec i t = .next t

/-! ### `nop` and the bit-stream units -/

/-- 40_bitstream.md R105: the word of `nop` is 0x0000, and it writes only `STATUS`. -/
def Obligations.NopWritesOnlyStatus : Prop :=
  CommandWord .nop 0x0000 ∧ ∀ s : State, exec .nop s = .next { s with status := 0 }

/-- 40_bitstream.md R106: `br.load` takes the block from `IN_BLOCK` and sets the cursor to 0, wherever it stood. -/
def Obligations.BrLoadTakesTheBlockAndRewinds : Prop :=
  CommandWord .brLoad 0x0001 ∧
  ∀ s : State, exec .brLoad s = .next { s with brBuf := s.ports.inBlock, brCur := 0, status := 0 }

/-- 40_bitstream.md R100, R101, R107: `br.read N` gives the field of R43 at the cursor, zero-extended, and advances the cursor by `N`; a width above 32 is BAD_OPERAND and a field past wire bit 127 is BR_OVERRUN, neither changing anything but the flags. -/
def Obligations.BrReadGivesTheFieldOrFails : Prop :=
  (∀ n : Nat, n < 64 → CommandWord (.brRead n) (BitVec.ofNat 16 (0x0002 + n * 0x20))) ∧
  ∀ (n : Nat) (s : State),
    (n ≤ 32 → s.brCur.toNat + n ≤ 128 →
      wireField s.brBuf s.brCur.toNat n < 2 ^ n ∧
      exec (.brRead n) s = .next { s with
        outVal := BitVec.ofNat 32 (wireField s.brBuf s.brCur.toNat n)
        brCur := BitVec.ofNat 8 (s.brCur.toNat + n)
        status := 0 }) ∧
    (32 < n → exec (.brRead n) s = .next { s with status := 3, fault := true }) ∧
    (n ≤ 32 → 128 < s.brCur.toNat + n →
      exec (.brRead n) s = .next { s with status := 4, fault := true })

/-- 40_bitstream.md R108: `bw.clear` zeroes the block and the cursor. -/
def Obligations.BwClearZeroesTheWriter : Prop :=
  CommandWord .bwClear 0x0003 ∧
  ∀ s : State, ∃ t : State, exec .bwClear s = .next t ∧
    t = { s with bwBuf := t.bwBuf, bwCur := 0, status := 0 } ∧ ∀ k : Fin 16, t.bwBuf[k] = 0

/-- 40_bitstream.md R102, R103, R109: `bw.write N` puts the low `N` bits of `IN_A` at the cursor, most significant first, leaves every other wire bit alone and advances the cursor by `N`; a width above 32 is BAD_OPERAND and a field past wire bit 127 is BW_OVERFLOW, neither changing anything but the flags. -/
def Obligations.BwWriteAppendsTheFieldOrFails : Prop :=
  (∀ n : Nat, n < 64 → CommandWord (.bwWrite n) (BitVec.ofNat 16 (0x0004 + n * 0x20))) ∧
  ∀ (n : Nat) (s : State),
    (n ≤ 32 → s.bwCur.toNat + n ≤ 128 →
      ∃ t : State, exec (.bwWrite n) s = .next t ∧
        t = { s with
          bwBuf := t.bwBuf, bwCur := BitVec.ofNat 8 (s.bwCur.toNat + n), status := 0 } ∧
        ∀ q : Nat, q < 128 → wireBit t.bwBuf q =
          if s.bwCur.toNat ≤ q ∧ q < s.bwCur.toNat + n then
            s.ports.inA.toNat / 2 ^ (n - 1 - (q - s.bwCur.toNat)) % 2
          else wireBit s.bwBuf q) ∧
    (32 < n → exec (.bwWrite n) s = .next { s with status := 3, fault := true }) ∧
    (n ≤ 32 → 128 < s.bwCur.toNat + n →
      exec (.bwWrite n) s = .next { s with status := 5, fault := true })

/-- 40_bitstream.md R110: `bw.emit` copies `BW_BUF` to `OUT_BLOCK` and leaves the writer alone; in a state that keeps the invariant of R24 the unwritten tail it copies is zero. -/
def Obligations.BwEmitCopiesTheBlock : Prop :=
  CommandWord .bwEmit 0x0005 ∧
  ∀ s : State, exec .bwEmit s = .next { s with outBlock := s.bwBuf, status := 0 } ∧
    (StateInv s → ∀ q : Nat, s.bwCur.toNat ≤ q → q < 128 → wireBit s.bwBuf q = 0)

/-- 40_bitstream.md R104: after `bw.clear` and writes of fields that fit, loading `BW_BUF` into the BitReader and reading the same widths gives the same values in the same order. -/
def Obligations.WrittenFieldsReadBack : Prop :=
  ∀ (s : State) (fs : List (Nat × Scalar)),
    (∀ f ∈ fs, f.1 ≤ 32 ∧ f.2.toNat < 2 ^ f.1) → (fs.map Prod.fst).sum ≤ 128 →
    ∃ t : State,
      Sys2Proof.core.run (fs.length + 1)
        { s with pending := present .bwClear Operands.idle :: writeFields fs } = .next t ∧
      t.status = 0 ∧
      ∀ (k : Nat) (h : k < fs.length), ∃ u : State,
        Sys2Proof.core.run (k + 2)
          { t with pending :=
              present .brLoad { Operands.idle with inBlock := t.bwBuf } :: readBack fs } = .next u ∧
        u.status = 0 ∧ u.outVal = fs[k].2

/-- 40_bitstream.md R104, 41_bc1.md R128, 42_bc2.md R161: the BitWriter makes the row bytes and alpha bytes. Four 2-bit fields written in order at a byte boundary give the byte `64 a + 16 b + 4 c + d`, and two nibbles give `16 a + b`. -/
def Obligations.BitWriterMakesRowAndAlphaBytes : Prop :=
  ∀ (B : Block) (k : Fin 16),
    (∀ a b c d : Fin 4,
      (bwWrite (bwWrite (bwWrite (bwWrite B (8 * k.val) 2 a.val).1 (8 * k.val + 2) 2 b.val).1
        (8 * k.val + 4) 2 c.val).1 (8 * k.val + 6) 2 d.val).1[k].toNat =
        64 * a.val + 16 * b.val + 4 * c.val + d.val) ∧
    (∀ a b : Fin 16,
      (bwWrite (bwWrite B (8 * k.val) 4 a.val).1 (8 * k.val + 4) 4 b.val).1[k].toNat =
        16 * a.val + b.val)

/-! ### BC1 -/

/-- 41_bc1.md R121, R135: `bc1.quant` gives the quotients by 4, 2 and 4 of the colour in `IN_B`; `OR_OVERLAP` ORs them unmasked and keeps 16 bits, `MASK` cuts each to its field, and both give one word when `g` and `b` are below 128. -/
def Obligations.Bc1QuantPacksTheQuotients : Prop :=
  CommandWord .bc1Quant 0x000A ∧
  ∀ s : State,
    let r := s.ports.inB.toNat % 2 ^ 8 / 4
    let g := s.ports.inB.toNat / 2 ^ 8 % 2 ^ 8 / 2
    let b := s.ports.inB.toNat / 2 ^ 16 % 2 ^ 8 / 4
    (s.params.pack565 = .orOverlap → exec .bc1Quant s = .next { s with
      outVal := BitVec.ofNat 32 ((r * 2 ^ 11 ||| g * 2 ^ 5 ||| b) % 2 ^ 16), status := 0 }) ∧
    (s.params.pack565 = .mask ∨ g < 64 ∧ b < 32 → exec .bc1Quant s = .next { s with
      outVal := BitVec.ofNat 32 (r % 32 * 2 ^ 11 + g % 64 * 2 ^ 5 + b % 32), status := 0 })

/-- 41_bc1.md R120, R122, R136: `bc1.expand` multiplies the fields of the word by 4, 2 and 4; the channels are at most 124, 126 and 124. -/
def Obligations.Bc1ExpandScalesTheFields : Prop :=
  CommandWord .bc1Expand 0x000B ∧
  ∀ s : State,
    let u := s.ports.inA.toNat % 2 ^ 16
    exec .bc1Expand s = .next { s with
      outVal := BitVec.ofNat 32
        (u / 2 ^ 11 * 4 + u / 2 ^ 5 % 2 ^ 6 * 2 * 2 ^ 8 + u % 2 ^ 5 * 4 * 2 ^ 16)
      status := 0 } ∧
    u / 2 ^ 11 * 4 ≤ 124 ∧ u / 2 ^ 5 % 2 ^ 6 * 2 ≤ 126 ∧ u % 2 ^ 5 * 4 ≤ 124

/-- 41_bc1.md R123, R137: `bc1.table` gives the two expanded endpoints and their two blends in the instance's integer form, without wrap, whatever the order of the endpoints; every lane has alpha 0 and lanes 4 to 15 are zero. -/
def Obligations.Bc1TableBlendsTheEndpoints : Prop :=
  CommandWord .bc1Table 0x000C ∧
  ∀ s : State,
    let c0 := expand565 (BitVec.ofNat 16 (s.ports.inA.toNat % 2 ^ 16))
    let c1 := expand565 (BitVec.ofNat 16 (s.ports.inA.toNat / 2 ^ 16))
    let blend : Nat → Nat → Nat := fun x y =>
      match s.params.thirds with
      | .perTerm => 2 * x / 3 + y / 3
      | .exact => (2 * x + y) / 3
      | .divFirst => 2 * (x / 3) + y / 3
    ∃ t : State, exec .bc1Table s = .next t ∧ t = { s with outTex := t.outTex, status := 0 } ∧
      t.outTex[0] = ⟨c0.r, c0.g, c0.b, 0⟩ ∧ t.outTex[1] = ⟨c1.r, c1.g, c1.b, 0⟩ ∧
      t.outTex[2].r.toNat = blend c0.r.toNat c1.r.toNat ∧
      t.outTex[2].g.toNat = blend c0.g.toNat c1.g.toNat ∧
      t.outTex[2].b.toNat = blend c0.b.toNat c1.b.toNat ∧
      t.outTex[3].r.toNat = blend c1.r.toNat c0.r.toNat ∧
      t.outTex[3].g.toNat = blend c1.g.toNat c0.g.toNat ∧
      t.outTex[3].b.toNat = blend c1.b.toNat c0.b.toNat ∧
      (∀ k : Fin 16, t.outTex[k].a = 0 ∧ t.outTex[k].r.toNat ≤ 126 ∧ t.outTex[k].g.toNat ≤ 126 ∧
        t.outTex[k].b.toNat ≤ 126) ∧
      (∀ k : Fin 16, 4 ≤ k.val → t.outTex[k] = ⟨0, 0, 0, 0⟩)

/-- 41_bc1.md R125, R126, R138: `bc1.closest` gives the lowest index whose table colour is at the least squared distance from the colour in `IN_B`; no distance exceeds 195075. -/
def Obligations.Bc1ClosestIsTheFirstNearest : Prop :=
  CommandWord .bc1Closest 0x000D ∧
  ∀ s : State,
    let T := colourTable s.params.thirds (BitVec.ofNat 16 (s.ports.inA.toNat % 2 ^ 16))
      (BitVec.ofNat 16 (s.ports.inA.toNat / 2 ^ 16))
    let c : Rgb8 := ⟨BitVec.ofNat 8 s.ports.inB.toNat, BitVec.ofNat 8 (s.ports.inB.toNat / 2 ^ 8),
      BitVec.ofNat 8 (s.ports.inB.toNat / 2 ^ 16)⟩
    (∃ k : Nat, IsNearest T c k ∧
      exec .bc1Closest s = .next { s with outVal := BitVec.ofNat 32 k, status := 0 }) ∧
    ∀ j : Fin 4, squaredDistance T[j] c ≤ 195075

/-- 41_bc1.md R127, R128, R129, R133: `bc1.enc` stores the quantized first minimum-key texel, then the first maximum-key one, little-endian, then each texel's nearest index in the table of those two words, column 0 in the top pair of its row byte; bytes 8 to 15 are zero and alpha has no part. R129's "`color0` is the minimum-key endpoint and `color1` the maximum-key endpoint" is the spec's own inference ("[derived: order from the §8 literal example]"). -/
def Obligations.Bc1EncWritesEndpointsAndIndices : Prop :=
  CommandWord .bc1Enc 0x0008 ∧
  ∀ s : State, ∃ (t : State) (mn mx : Fin 16),
    exec .bc1Enc s = .next t ∧ t = { s with outBlock := t.outBlock, status := 0 } ∧
    IsFirstMin s.ports.inTex mn ∧ IsFirstMax s.ports.inTex mx ∧
    (let u0 := pack565 s.params.pack565 s.ports.inTex[mn].rgb
     let u1 := pack565 s.params.pack565 s.ports.inTex[mx].rgb
     t.outBlock[0].toNat + 2 ^ 8 * t.outBlock[1].toNat = u0.toNat ∧
     t.outBlock[2].toNat + 2 ^ 8 * t.outBlock[3].toNat = u1.toNat ∧
     ∀ i : Fin 16, IsNearest (colourTable s.params.thirds u0 u1) s.ports.inTex[i].rgb
       (rowPair t.outBlock[4 + i.val / 4] (i.val % 4))) ∧
    ∀ k : Fin 16, 8 ≤ k.val → t.outBlock[k] = 0

/-- 41_bc1.md R130, R134: `bc1.dec` gives each texel the table colour its 2-bit index names, with alpha 0, from bytes 0 to 7 alone. -/
def Obligations.Bc1DecLooksUpTheIndices : Prop :=
  CommandWord .bc1Dec 0x0009 ∧
  ∀ s : State,
    let B := s.ports.inBlock
    let T := colourTable s.params.thirds (BitVec.ofNat 16 (B[0].toNat + 2 ^ 8 * B[1].toNat))
      (BitVec.ofNat 16 (B[2].toNat + 2 ^ 8 * B[3].toNat))
    ∃ t : State, exec .bc1Dec s = .next t ∧ t = { s with outTex := t.outTex, status := 0 } ∧
      ∀ (i : Fin 16) (k : Fin 4), rowPair B[4 + i.val / 4] (i.val % 4) = k.val →
        t.outTex[i] = ⟨T[k].r, T[k].g, T[k].b, 0⟩

/-- 41_bc1.md R122, R132; 42_bc2.md R162: no colour channel that `bc1.dec` or `bc2.dec` gives exceeds 126, and no alpha that `bc2.dec` gives exceeds 240. -/
def Obligations.DecodedChannelsStayBelowTheirBounds : Prop :=
  ∀ (i : Instr) (s t : State), i ∈ [.bc1Dec, .bc2Dec] → exec i s = .next t →
    ∀ k : Fin 16, t.outTex[k].r.toNat ≤ 126 ∧ t.outTex[k].g.toNat ≤ 126 ∧
      t.outTex[k].b.toNat ≤ 126 ∧ t.outTex[k].a.toNat ≤ 240

/-! ### BC2 -/

/-- 42_bc2.md R160, R161, R164, R166, R168: `bc2.enc` stores `a div 16` of the even texel in the high nibble and of the odd one in the low nibble, then, byte for byte, the block `bc1.enc` gives for the same texels. -/
def Obligations.Bc2EncWritesAlphaThenTheBc1Block : Prop :=
  CommandWord .bc2Enc 0x0010 ∧
  ∀ s : State, ∃ t u : State,
    exec .bc2Enc s = .next t ∧ t = { s with outBlock := t.outBlock, status := 0 } ∧
    exec .bc1Enc s = .next u ∧
    ∀ j : Fin 8,
      t.outBlock[j.val].toNat =
        16 * (s.ports.inTex[2 * j.val].a.toNat / 16) + s.ports.inTex[2 * j.val + 1].a.toNat / 16 ∧
      t.outBlock[8 + j.val] = u.outBlock[j.val]

/-- 42_bc2.md R162, R165, R167, R168: `bc2.dec` gives alpha 16 times the stored nibble, and the colours `bc1.dec` gives for bytes 8 to 15. -/
def Obligations.Bc2DecExpandsAlphaOverTheBc1Colours : Prop :=
  CommandWord .bc2Dec 0x0011 ∧
  ∀ (s : State) (B : Block), (∀ j : Fin 8, B[j.val] = s.ports.inBlock[8 + j.val]) →
    ∃ t u : State,
      exec .bc2Dec s = .next t ∧ t = { s with outTex := t.outTex, status := 0 } ∧
      exec .bc1Dec { s with ports := { s.ports with inBlock := B } } = .next u ∧
      ∀ i : Fin 16,
        t.outTex[i].rgb = u.outTex[i].rgb ∧
        t.outTex[i].a.toNat = 16 *
          (if i.val % 2 = 0 then s.ports.inBlock[i.val / 2].toNat / 16
           else s.ports.inBlock[i.val / 2].toNat % 16)

/-- 42_bc2.md R163: decoding what `bc2.enc` wrote gives every texel the greatest multiple of 16 not above its alpha. -/
def Obligations.AlphaRoundTripTruncatesToSixteen : Prop :=
  ∀ s t u : State, exec .bc2Enc s = .next t →
    exec .bc2Dec { t with ports := { t.ports with inBlock := t.outBlock } } = .next u →
    ∀ i : Fin 16, u.outTex[i].a.toNat = s.ports.inTex[i].a.toNat / 16 * 16

/-! ### BC7 -/

/-- 43_bc7.md R180, R181, R182, R206: `bc7.mode` gives the position of the first 1 bit of byte 0 and that mode's subset count, and tag 8 with count 0 when byte 0 is zero, whatever the other bytes hold. -/
def Obligations.Bc7ModeIsTheFirstOneBit : Prop :=
  CommandWord .bc7Mode 0x0019 ∧
  ∀ s : State,
    (∀ m : Nat, m < 8 → 0x80 / 2 ^ m ≤ s.ports.inBlock[0].toNat →
      s.ports.inBlock[0].toNat < 0x100 / 2 ^ m →
      exec .bc7Mode s = .next { s with
        outVal := BitVec.ofNat 32 (m + 16 * [3, 2, 3, 2, 1, 1, 1, 2].getD m 0), status := 0 }) ∧
    (s.ports.inBlock[0].toNat = 0 → exec .bc7Mode s = .next { s with outVal := 8, status := 0 })

/-- 43_bc7.md R183; 60_exceptions.md R249: a block whose byte 0 is zero decodes to 16 texels (0,0,0,0) with tag 8 and status OK, and leaves `FAULT` as it was. -/
def Obligations.Bc7InvalidBlockFallsBackToZero : Prop :=
  ∀ s : State, s.ports.inBlock[0] = 0 →
    exec .bc7Dec s = .next { s with
      outTex := Vector.replicate 16 ⟨0, 0, 0, 0⟩, outVal := 8, status := 0 }

/-- 43_bc7.md R204: a block of Modes 1 to 7 (byte 0 from 0x01 to 0x7F) ends with UNSUPPORTED, and only `STATUS` and `FAULT` are written. -/
def Obligations.Bc7ModesOneToSevenAreUnsupported : Prop :=
  ∀ s : State, 0 < s.ports.inBlock[0].toNat → s.ports.inBlock[0].toNat < 0x80 →
    exec .bc7Dec s = .next { s with status := 1, fault := true }

/-- 43_bc7.md R191 to R196, R199, R205: the sequential Mode0 decoder gives every texel what the fixed wire map says: components, P-bits and indices at the wire bits of R191 and R194, subset and anchors from the ROMs, `W3` with no rounding term, alpha 255; `OUT_VAL` is tag 0, 3 subsets and the partition; the last index ends at wire bit 128. -/
def Obligations.Bc7DecFollowsTheMode0WireMap : Prop :=
  CommandWord .bc7Dec 0x0018 ∧
  ∀ s : State, 0x80 ≤ s.ports.inBlock[0].toNat →
    mode0IndexStart (wireField s.ports.inBlock 1 4) 16 = 128 ∧
    ∃ t : State, exec .bc7Dec s = .next t ∧
      t = { s with
        outTex := t.outTex
        outVal := BitVec.ofNat 32 (0x30 + 2 ^ 8 * wireField s.ports.inBlock 1 4)
        status := 0 } ∧
      ∀ i : Fin 16,
        t.outTex[i].r.toNat = mode0Channel s.ports.inBlock 5 i.val ∧
        t.outTex[i].g.toNat = mode0Channel s.ports.inBlock 29 i.val ∧
        t.outTex[i].b.toNat = mode0Channel s.ports.inBlock 53 i.val ∧
        t.outTex[i].a = 255

/-- 43_bc7.md R185, R207: `bc7.part` gives 0 for one subset whatever the partition, the digit of the partition row for two and three, and BAD_OPERAND for `ns` = 0. -/
def Obligations.Bc7PartReadsThePartitionRow : Prop :=
  CommandWord .bc7Part 0x001A ∧
  ∀ s : State,
    let ns := s.ports.inA.toNat % 2 ^ 2
    let p := s.ports.inA.toNat / 2 ^ 8 % 2 ^ 6
    let pos := s.ports.inA.toNat / 2 ^ 16 % 2 ^ 4
    (ns = 0 → exec .bc7Part s = .next { s with status := 3, fault := true }) ∧
    (ns = 1 → exec .bc7Part s = .next { s with outVal := 0, status := 0 }) ∧
    (ns = 2 → exec .bc7Part s = .next { s with
      outVal := BitVec.ofNat 32 (part2Rom.getD p 0 / 16 ^ (15 - pos) % 16), status := 0 }) ∧
    (ns = 3 → exec .bc7Part s = .next { s with
      outVal := BitVec.ofNat 32 (part3Rom.getD p 0 / 16 ^ (15 - pos) % 16), status := 0 })

/-- 43_bc7.md R184: in every partition of two and of three subsets, `bc7.part` gives ids below the subset count only, gives every one of them at some position, and gives 0 at position 0. -/
def Obligations.EveryPartitionUsesEverySubset : Prop :=
  ∀ (s : State) (ns p : Nat), ns = 2 ∨ ns = 3 → p < 64 →
    let answer : Nat → Nat → Prop := fun pos id =>
      exec .bc7Part { s with ports := { s.ports with
        inA := BitVec.ofNat 32 (ns + 2 ^ 8 * p + 2 ^ 16 * pos) } } =
      .next { s with
        ports := { s.ports with inA := BitVec.ofNat 32 (ns + 2 ^ 8 * p + 2 ^ 16 * pos) }
        outVal := BitVec.ofNat 32 id
        status := 0 }
    (∀ pos : Nat, pos < 16 → ∃ id : Nat, id < ns ∧ answer pos id) ∧
    (∀ id : Nat, id < ns → ∃ pos : Nat, pos < 16 ∧ answer pos id) ∧
    answer 0 0

/-- 43_bc7.md R187, R208: `bc7.anchor` gives position 0 for subset 0, the anchor ROM's entry for the others, and BAD_OPERAND where `ns` = 0 or `s >= ns`. -/
def Obligations.Bc7AnchorReadsTheAnchorRoms : Prop :=
  CommandWord .bc7Anchor 0x001B ∧
  ∀ s : State,
    let ns := s.ports.inA.toNat % 2 ^ 2
    let p := s.ports.inA.toNat / 2 ^ 8 % 2 ^ 6
    let sub := s.ports.inA.toNat / 2 ^ 24 % 2 ^ 2
    (ns ≤ sub → exec .bc7Anchor s = .next { s with status := 3, fault := true }) ∧
    (0 < ns → sub = 0 → exec .bc7Anchor s = .next { s with outVal := 0, status := 0 }) ∧
    (ns = 2 → sub = 1 → exec .bc7Anchor s = .next { s with
      outVal := BitVec.ofNat 32 (anchor2Rom.getD p 0), status := 0 }) ∧
    (ns = 3 → sub = 1 → exec .bc7Anchor s = .next { s with
      outVal := BitVec.ofNat 32 (anchor3aRom.getD p 0), status := 0 }) ∧
    (ns = 3 → sub = 2 → exec .bc7Anchor s = .next { s with
      outVal := BitVec.ofNat 32 (anchor3bRom.getD p 0), status := 0 })

/-- 43_bc7.md R184, R186: the ROMs fit each other. Whatever anchor position `bc7.anchor` gives for a subset, `bc7.part` of the same subset count and partition at that position gives that subset. -/
def Obligations.AnchorsLieInTheirOwnSubsets : Prop :=
  ∀ (s t : State) (ns p sub : Nat), 1 ≤ ns → ns ≤ 3 → p < 64 → sub < ns →
    s.ports.inA = BitVec.ofNat 32 (ns + 2 ^ 8 * p + 2 ^ 24 * sub) → exec .bc7Anchor s = .next t →
    t.outVal.toNat < 16 ∧
    exec .bc7Part { t with ports := { t.ports with
      inA := BitVec.ofNat 32 (ns + 2 ^ 8 * p + 2 ^ 16 * t.outVal.toNat) } } =
      .next { t with
        ports := { t.ports with inA := BitVec.ofNat 32 (ns + 2 ^ 8 * p + 2 ^ 16 * t.outVal.toNat) }
        outVal := BitVec.ofNat 32 sub
        status := 0 }

/-- 43_bc7.md R190, R209: `bc7.pexp` gives `16 v + 8 pb + v div 2`, for every component and P-bit. -/
def Obligations.Bc7PexpPutsThePBitBetween : Prop :=
  CommandWord .bc7Pexp 0x001C ∧
  ∀ s : State,
    let v := s.ports.inA.toNat % 2 ^ 4
    let pb := s.ports.inA.toNat / 2 ^ 8 % 2
    exec .bc7Pexp s = .next { s with
      outVal := BitVec.ofNat 32 (16 * v + 8 * pb + v / 2), status := 0 }

/-- 43_bc7.md R188, R189, R210: `bc7.interp` gives the floor by 64 of the weighted sum, with 32 added for 2-bit indices only, and the value is at most 255; another width, or an index that does not fit its width, is BAD_OPERAND. -/
def Obligations.Bc7InterpWeightsTheEndpoints : Prop :=
  CommandWord .bc7Interp 0x001D ∧
  ∀ s : State,
    let e0 := s.ports.inA.toNat % 2 ^ 8
    let e1 := s.ports.inA.toNat / 2 ^ 8 % 2 ^ 8
    let i := s.ports.inA.toNat / 2 ^ 16 % 2 ^ 4
    let bits := s.ports.inA.toNat / 2 ^ 24 % 2 ^ 3
    let result : Nat → Nat → Nat := fun w rnd => ((64 - w) * e0 + w * e1 + rnd) / 64
    let answers : Nat → Prop := fun v => v ≤ 255 ∧
      exec .bc7Interp s = .next { s with outVal := BitVec.ofNat 32 v, status := 0 }
    (bits = 2 → i < 4 → answers (result ([0, 21, 43, 64].getD i 0) 32)) ∧
    (bits = 3 → i < 8 → answers (result ([0, 9, 18, 27, 37, 46, 55, 64].getD i 0) 0)) ∧
    (bits = 4 → answers
      (result ([0, 4, 9, 13, 17, 21, 26, 30, 34, 38, 43, 47, 51, 55, 60, 64].getD i 0) 0)) ∧
    (bits < 2 ∨ 4 < bits ∨ bits = 2 ∧ 4 ≤ i ∨ bits = 3 ∧ 8 ≤ i →
      exec .bc7Interp s = .next { s with status := 3, fault := true })

/-- 43_bc7.md R189: the interpolated value never leaves the range of its two endpoints, index 0 gives the start and the last index of the width gives the end. -/
def Obligations.InterpolationStaysBetweenTheEndpoints : Prop :=
  ∀ (s t : State), exec .bc7Interp s = .next t → t.status = 0 →
    let e0 := s.ports.inA.toNat % 2 ^ 8
    let e1 := s.ports.inA.toNat / 2 ^ 8 % 2 ^ 8
    let i := s.ports.inA.toNat / 2 ^ 16 % 2 ^ 4
    let bits := s.ports.inA.toNat / 2 ^ 24 % 2 ^ 3
    min e0 e1 ≤ t.outVal.toNat ∧ t.outVal.toNat ≤ max e0 e1 ∧
    (i = 0 → t.outVal.toNat = e0) ∧ (i = 2 ^ bits - 1 → t.outVal.toNat = e1)

/-- 43_bc7.md R211: `bc7.enc` always ends with UNSUPPORTED and changes nothing but `STATUS` and `FAULT`. -/
def Obligations.Bc7EncIsAlwaysUnsupported : Prop :=
  CommandWord .bc7Enc 0x001E ∧
  ∀ s : State, exec .bc7Enc s = .next { s with status := 1, fault := true }
end

