-- ==== Sys2Proof/Laws/State.lean ====
section
/-! SUPPORT. One lemma per field per named update of State, true by rfl, so that no later proof unfolds an update. -/

namespace Sys2Proof.Machine

open Sys2Proof

/-! ### recordStatus -/

@[simp] theorem State.recordStatus_brBuf (st : Status) (s : State) :
    (s.recordStatus st).brBuf = s.brBuf := rfl

@[simp] theorem State.recordStatus_brCur (st : Status) (s : State) :
    (s.recordStatus st).brCur = s.brCur := rfl

@[simp] theorem State.recordStatus_bwBuf (st : Status) (s : State) :
    (s.recordStatus st).bwBuf = s.bwBuf := rfl

@[simp] theorem State.recordStatus_bwCur (st : Status) (s : State) :
    (s.recordStatus st).bwCur = s.bwCur := rfl

@[simp] theorem State.recordStatus_outBlock (st : Status) (s : State) :
    (s.recordStatus st).outBlock = s.outBlock := rfl

@[simp] theorem State.recordStatus_outTex (st : Status) (s : State) :
    (s.recordStatus st).outTex = s.outTex := rfl

@[simp] theorem State.recordStatus_outVal (st : Status) (s : State) :
    (s.recordStatus st).outVal = s.outVal := rfl

@[simp] theorem State.recordStatus_status (st : Status) (s : State) :
    (s.recordStatus st).status = st.code := rfl

@[simp] theorem State.recordStatus_fault (st : Status) (s : State) :
    (s.recordStatus st).fault = (s.fault || st.isFailure) := rfl

@[simp] theorem State.recordStatus_params (st : Status) (s : State) :
    (s.recordStatus st).params = s.params := rfl

@[simp] theorem State.recordStatus_ports (st : Status) (s : State) :
    (s.recordStatus st).ports = s.ports := rfl

@[simp] theorem State.recordStatus_pending (st : Status) (s : State) :
    (s.recordStatus st).pending = s.pending := rfl

/-! ### present -/

@[simp] theorem State.present_brBuf (t : Transaction) (rest : List HostEvent) (s : State) :
    (s.present t rest).brBuf = s.brBuf := rfl

@[simp] theorem State.present_brCur (t : Transaction) (rest : List HostEvent) (s : State) :
    (s.present t rest).brCur = s.brCur := rfl

@[simp] theorem State.present_bwBuf (t : Transaction) (rest : List HostEvent) (s : State) :
    (s.present t rest).bwBuf = s.bwBuf := rfl

@[simp] theorem State.present_bwCur (t : Transaction) (rest : List HostEvent) (s : State) :
    (s.present t rest).bwCur = s.bwCur := rfl

@[simp] theorem State.present_outBlock (t : Transaction) (rest : List HostEvent) (s : State) :
    (s.present t rest).outBlock = s.outBlock := rfl

@[simp] theorem State.present_outTex (t : Transaction) (rest : List HostEvent) (s : State) :
    (s.present t rest).outTex = s.outTex := rfl

@[simp] theorem State.present_outVal (t : Transaction) (rest : List HostEvent) (s : State) :
    (s.present t rest).outVal = s.outVal := rfl

@[simp] theorem State.present_status (t : Transaction) (rest : List HostEvent) (s : State) :
    (s.present t rest).status = s.status := rfl

@[simp] theorem State.present_fault (t : Transaction) (rest : List HostEvent) (s : State) :
    (s.present t rest).fault = s.fault := rfl

@[simp] theorem State.present_params (t : Transaction) (rest : List HostEvent) (s : State) :
    (s.present t rest).params = s.params := rfl

@[simp] theorem State.present_ports (t : Transaction) (rest : List HostEvent) (s : State) :
    (s.present t rest).ports = t.operands := rfl

@[simp] theorem State.present_pending (t : Transaction) (rest : List HostEvent) (s : State) :
    (s.present t rest).pending = rest := rfl

/-! ### release -/

@[simp] theorem State.release_brBuf (s : State) :
    (s.release).brBuf = s.brBuf := rfl

@[simp] theorem State.release_brCur (s : State) :
    (s.release).brCur = s.brCur := rfl

@[simp] theorem State.release_bwBuf (s : State) :
    (s.release).bwBuf = s.bwBuf := rfl

@[simp] theorem State.release_bwCur (s : State) :
    (s.release).bwCur = s.bwCur := rfl

@[simp] theorem State.release_outBlock (s : State) :
    (s.release).outBlock = s.outBlock := rfl

@[simp] theorem State.release_outTex (s : State) :
    (s.release).outTex = s.outTex := rfl

@[simp] theorem State.release_outVal (s : State) :
    (s.release).outVal = s.outVal := rfl

@[simp] theorem State.release_status (s : State) :
    (s.release).status = s.status := rfl

@[simp] theorem State.release_fault (s : State) :
    (s.release).fault = s.fault := rfl

@[simp] theorem State.release_params (s : State) :
    (s.release).params = s.params := rfl

@[simp] theorem State.release_ports (s : State) :
    (s.release).ports = Operands.idle := rfl

@[simp] theorem State.release_pending (s : State) :
    (s.release).pending = s.pending := rfl

/-! ### applyReset -/

@[simp] theorem State.applyReset_brBuf (rest : List HostEvent) (s : State) :
    (s.applyReset rest).brBuf = State.reset.brBuf := rfl

@[simp] theorem State.applyReset_brCur (rest : List HostEvent) (s : State) :
    (s.applyReset rest).brCur = State.reset.brCur := rfl

@[simp] theorem State.applyReset_bwBuf (rest : List HostEvent) (s : State) :
    (s.applyReset rest).bwBuf = State.reset.bwBuf := rfl

@[simp] theorem State.applyReset_bwCur (rest : List HostEvent) (s : State) :
    (s.applyReset rest).bwCur = State.reset.bwCur := rfl

@[simp] theorem State.applyReset_outBlock (rest : List HostEvent) (s : State) :
    (s.applyReset rest).outBlock = State.reset.outBlock := rfl

@[simp] theorem State.applyReset_outTex (rest : List HostEvent) (s : State) :
    (s.applyReset rest).outTex = State.reset.outTex := rfl

@[simp] theorem State.applyReset_outVal (rest : List HostEvent) (s : State) :
    (s.applyReset rest).outVal = State.reset.outVal := rfl

@[simp] theorem State.applyReset_status (rest : List HostEvent) (s : State) :
    (s.applyReset rest).status = State.reset.status := rfl

@[simp] theorem State.applyReset_fault (rest : List HostEvent) (s : State) :
    (s.applyReset rest).fault = State.reset.fault := rfl

@[simp] theorem State.applyReset_params (rest : List HostEvent) (s : State) :
    (s.applyReset rest).params = s.params := rfl

@[simp] theorem State.applyReset_ports (rest : List HostEvent) (s : State) :
    (s.applyReset rest).ports = State.reset.ports := rfl

@[simp] theorem State.applyReset_pending (rest : List HostEvent) (s : State) :
    (s.applyReset rest).pending = rest := rfl

/-! ### reset -/

@[simp] theorem State.reset_brBuf : State.reset.brBuf = zeroBlock := rfl

@[simp] theorem State.reset_brCur : State.reset.brCur = 0 := rfl

@[simp] theorem State.reset_bwBuf : State.reset.bwBuf = zeroBlock := rfl

@[simp] theorem State.reset_bwCur : State.reset.bwCur = 0 := rfl

@[simp] theorem State.reset_outBlock : State.reset.outBlock = zeroBlock := rfl

@[simp] theorem State.reset_outTex : State.reset.outTex = zeroTexels := rfl

@[simp] theorem State.reset_outVal : State.reset.outVal = 0 := rfl

@[simp] theorem State.reset_status : State.reset.status = 0 := rfl

@[simp] theorem State.reset_fault : State.reset.fault = false := rfl

@[simp] theorem State.reset_params : State.reset.params = Config.Params.default := rfl

@[simp] theorem State.reset_ports : State.reset.ports = Operands.idle := rfl

@[simp] theorem State.reset_pending : State.reset.pending = [] := rfl

/-! ### The two ways a command ends -/

/-- `finish` as an update: `STATUS` is 0 and nothing else is written (R241). -/
theorem finish_eq (s : State) : finish s = .next { s with status := 0 } := by
  simp [finish, State.recordStatus, Status.code, Status.isFailure]

/-- `raise` as an update, for a failing status: the code and `FAULT`, nothing else (R243). -/
theorem raise_eq (st : Status) (s : State) (h : st.isFailure = true) :
    raise st s = .next { s with status := st.code, fault := true } := by
  simp [raise, State.recordStatus, h]

@[simp] theorem raise_unsupported (s : State) :
    raise .unsupported s = .next { s with status := 1, fault := true } := raise_eq .unsupported s rfl

@[simp] theorem raise_illegalCmd (s : State) :
    raise .illegalCmd s = .next { s with status := 2, fault := true } := raise_eq .illegalCmd s rfl

@[simp] theorem raise_badOperand (s : State) :
    raise .badOperand s = .next { s with status := 3, fault := true } := raise_eq .badOperand s rfl

@[simp] theorem raise_brOverrun (s : State) :
    raise .brOverrun s = .next { s with status := 4, fault := true } := raise_eq .brOverrun s rfl

@[simp] theorem raise_bwOverflow (s : State) :
    raise .bwOverflow s = .next { s with status := 5, fault := true } := raise_eq .bwOverflow s rfl

@[simp] theorem releasePorts_next (s : State) :
    releasePorts (.next s) = .next { s with ports := Operands.idle } := rfl

end Sys2Proof.Machine
end

