-- ==== Sys2Proof/Laws/Ops.lean ====
section
/-! SUPPORT. What the shared operations do, said once: wire bits, the BitReader and BitWriter functions, and how a command can end. -/

namespace Sys2Proof.Machine

open Sys2Proof

/-! ### Wire bits -/

theorem byteAt_of_lt (B : Block) (k : Nat) (h : k < 16) : byteAt B k = B[k] := by
  simp [byteAt, h]

theorem getLsbD_setByteBit (x : Byte) (k j : Nat) (b : Bool) (hk : k < 8) (hj : j < 8) :
    (setByteBit x k b).getLsbD j = if j = k then b else x.getLsbD j := by
  rcases Nat.lt_trichotomy j k with h | h | h
  · have h' : j ≠ k := by omega
    have : ¬ (k ≤ j) := by omega
    cases b <;> simp [setByteBit, hj, h', h]
  · subst h
    cases b <;> simp [setByteBit, hj]
  · have h' : j ≠ k := by omega
    have h1 : ¬ (j < k) := by omega
    have h2 : j - k ≠ 0 := by omega
    cases b <;> simp [setByteBit, hj, h', h1, h2]

theorem byteAt_setBit (B : Block) (p k : Nat) (b : Bool) (hp : p < 128) (hk : k < 16) :
    byteAt (setBit B p b) k =
      if k = p / 8 then setByteBit (byteAt B k) (7 - p % 8) b else byteAt B k := by
  have hp8 : p / 8 < 16 := by omega
  simp only [byteAt_of_lt _ k hk, setBit, Vector.getElem_setIfInBounds]
  by_cases h : p / 8 = k
  · subst h; simp [byteAt_of_lt _ _ hp8]
  · have h' : ¬ (k = p / 8) := fun e => h e.symm
    simp [h, h']

/-- Writing one wire bit changes that bit and no other (R102). -/
theorem bitAt_setBit (B : Block) (p q : Nat) (b : Bool) (hp : p < 128) (hq : q < 128) :
    bitAt (setBit B p b) q = if q = p then b else bitAt B q := by
  have hk : q / 8 < 16 := by omega
  simp only [bitAt, byteAt_setBit B p (q / 8) b hp hk]
  by_cases h : q / 8 = p / 8
  · rw [if_pos h, getLsbD_setByteBit _ _ _ _ (by omega) (by omega)]
    by_cases h2 : q = p
    · subst h2; simp
    · have : ¬ (7 - q % 8 = 7 - p % 8) := by omega
      simp [this, h2]
  · have h2 : q ≠ p := by rintro rfl; exact h rfl
    rw [if_neg h, if_neg h2]

/-- Two blocks with the same 128 wire bits are the same block. -/
theorem block_ext_bitAt (B C : Block) (h : ∀ q, q < 128 → bitAt B q = bitAt C q) : B = C := by
  apply Vector.ext
  intro k hk
  apply BitVec.eq_of_getLsbD_eq
  intro j hj
  have := h (8 * k + (7 - j)) (by omega)
  have e1 : (8 * k + (7 - j)) / 8 = k := by omega
  have e2 : 7 - (8 * k + (7 - j)) % 8 = j := by omega
  simp only [bitAt, e1, e2, byteAt_of_lt _ k hk] at this
  exact this

@[simp] theorem bitAt_zeroBlock (q : Nat) : bitAt zeroBlock q = false := by
  simp only [bitAt, byteAt, zeroBlock]
  split <;> simp

/-! ### The BitReader function -/

theorem brValue_lt (B : Block) (cur n : Nat) : brValue B cur n < 2 ^ n := by
  induction n with
  | zero => simp [brValue]
  | succ n ih =>
    have : (bitAt B (cur + n)).toNat ≤ 1 := Bool.toNat_le _
    simp only [brValue, Nat.pow_succ]
    omega

/-- Bit `j` of a value read is the wire bit `n - 1 - j` of the field: most significant first (R43). -/
theorem testBit_brValue (B : Block) (cur n j : Nat) (h : j < n) :
    (brValue B cur n).testBit j = bitAt B (cur + (n - 1 - j)) := by
  induction n generalizing j with
  | zero => omega
  | succ n ih =>
    have key : brValue B cur (n + 1) = Nat.bit (bitAt B (cur + n)) (brValue B cur n) := by
      simp only [brValue, Nat.bit_val]
    cases j with
    | zero => rw [key, Nat.testBit_bit_zero]; congr 1
    | succ j =>
      rw [key, Nat.testBit_bit_succ, ih j (by omega)]
      congr 2; omega

/-- Reading depends only on the wire bits of the field. -/
theorem brValue_congr (B C : Block) (cur n : Nat)
    (h : ∀ q, cur ≤ q → q < cur + n → bitAt B q = bitAt C q) : brValue B cur n = brValue C cur n := by
  induction n with
  | zero => rfl
  | succ n ih =>
    simp only [brValue]
    rw [ih (fun q h1 h2 => h q h1 (by omega)), h (cur + n) (by omega) (by omega)]

/-! ### The BitWriter function -/

/-- Each turn of the writer's loop leaves the wire bits outside `cur .. cur + j - 1` alone and sets those inside (R102). -/
theorem bitAt_bwBits (B : Block) (cur n v j q : Nat) (hj : j ≤ n) (hn : cur + n ≤ 128) (hq : q < 128) :
    bitAt (bwBits B cur n v j) q =
      if cur ≤ q ∧ q < cur + j then v.testBit (n - 1 - (q - cur)) else bitAt B q := by
  induction j with
  | zero =>
    have : ¬ (cur ≤ q ∧ q < cur + 0) := by omega
    rw [if_neg this]; rfl
  | succ j ih =>
    simp only [bwBits]
    rw [bitAt_setBit _ _ _ _ (by omega) hq, ih (by omega)]
    by_cases h : q = cur + j
    · subst h
      have h1 : cur ≤ cur + j ∧ cur + j < cur + (j + 1) := by omega
      rw [if_pos rfl, if_pos h1]
      congr 2; omega
    · rw [if_neg h]
      by_cases h1 : cur ≤ q ∧ q < cur + j
      · have h2 : cur ≤ q ∧ q < cur + (j + 1) := by omega
        rw [if_pos h1, if_pos h2]
      · have h2 : ¬ (cur ≤ q ∧ q < cur + (j + 1)) := by omega
        rw [if_neg h1, if_neg h2]

/-- What `BWWrite` does to every wire bit (R102). -/
theorem bitAt_bwWrite (B : Block) (cur n v q : Nat) (hn : cur + n ≤ 128) (hq : q < 128) :
    bitAt (bwWrite B cur n v).1 q =
      if cur ≤ q ∧ q < cur + n then v.testBit (n - 1 - (q - cur)) else bitAt B q :=
  bitAt_bwBits B cur n v n q (Nat.le_refl n) hn hq

/-- The writer depends only on the low `n` bits of its value (R102). -/
theorem bwWrite_congr (B : Block) (cur n v v' : Nat) (hn : cur + n ≤ 128) (h : v % 2 ^ n = v' % 2 ^ n) :
    bwWrite B cur n v = bwWrite B cur n v' := by
  refine Prod.ext (block_ext_bitAt _ _ fun q hq => ?_) rfl
  rw [bitAt_bwWrite B cur n v q hn hq, bitAt_bwWrite B cur n v' q hn hq]
  by_cases hin : cur ≤ q ∧ q < cur + n
  · have e : ∀ x : Nat, x.testBit (n - 1 - (q - cur)) = (x % 2 ^ n).testBit (n - 1 - (q - cur)) := by
      intro x
      rw [Nat.testBit_mod_two_pow]
      have : n - 1 - (q - cur) < n := by omega
      simp [this]
    rw [if_pos hin, if_pos hin, e v, e v', h]
  · rw [if_neg hin, if_neg hin]

/-- Reading a field back right after it is written gives its value (R104). -/
theorem brValue_bwWrite (B : Block) (cur n v : Nat) (hn : cur + n ≤ 128) (hv : v < 2 ^ n) :
    brValue (bwWrite B cur n v).1 cur n = v := by
  apply Nat.eq_of_testBit_eq
  intro j
  by_cases hj : j < n
  · rw [testBit_brValue _ _ _ _ hj, bitAt_bwWrite B cur n v _ hn (by omega), if_pos (by omega)]
    congr 1; omega
  · have h2 : 2 ^ n ≤ 2 ^ j := Nat.pow_le_pow_right (by decide) (by omega)
    rw [Nat.testBit_lt_two_pow (lt_of_lt_of_le (brValue_lt _ _ _) h2),
      Nat.testBit_lt_two_pow (lt_of_lt_of_le hv h2)]

/-! ### How a command ends -/

theorem isFailure_code_ne_zero (st : Status) (h : st.isFailure = true) : st.code ≠ 0 := by
  cases st <;> simp_all [Status.isFailure, Status.code]

theorem code_le_five (st : Status) : st.code.toNat ≤ 5 := by cases st <;> decide

end Sys2Proof.Machine
end

