-- ==== Sys2Proof/Laws/Operands.lean ====
section
/-! SUPPORT. The operand fields as arithmetic on the port's number (30_encoding.md R66), the port layouts lane by lane (20_memory.md R51, R52), and the arithmetic readings of wire bits and fields. -/

namespace Sys2Proof.Machine

open Sys2Proof Sys2Proof.Safety

/-! ### Fields of the scalar ports -/

theorem subsetCountField_eq (a : Scalar) : subsetCountField a = a.toNat % 2 ^ 2 := by
  simp [subsetCountField, BitVec.extractLsb'_toNat]

theorem partitionField_eq (a : Scalar) : partitionField a = a.toNat / 2 ^ 8 % 2 ^ 6 := by
  simp [partitionField, BitVec.extractLsb'_toNat, Nat.shiftRight_eq_div_pow]

theorem positionField_eq (a : Scalar) : positionField a = a.toNat / 2 ^ 16 % 2 ^ 4 := by
  simp [positionField, BitVec.extractLsb'_toNat, Nat.shiftRight_eq_div_pow]

theorem subsetField_eq (a : Scalar) : subsetField a = a.toNat / 2 ^ 24 % 2 ^ 2 := by
  simp [subsetField, BitVec.extractLsb'_toNat, Nat.shiftRight_eq_div_pow]

theorem componentField_eq (a : Scalar) : componentField a = a.toNat % 2 ^ 4 := by
  simp [componentField, BitVec.extractLsb'_toNat]

theorem pBitField_eq (a : Scalar) : pBitField a = a.toNat / 2 ^ 8 % 2 := by
  simp [pBitField, BitVec.extractLsb'_toNat, Nat.shiftRight_eq_div_pow]

theorem startField_toNat (a : Scalar) : (startField a).toNat = a.toNat % 2 ^ 8 := by
  simp [startField, BitVec.extractLsb'_toNat]

theorem endField_toNat (a : Scalar) : (endField a).toNat = a.toNat / 2 ^ 8 % 2 ^ 8 := by
  simp [endField, BitVec.extractLsb'_toNat, Nat.shiftRight_eq_div_pow]

theorem indexField_eq (a : Scalar) : indexField a = a.toNat / 2 ^ 16 % 2 ^ 4 := by
  simp [indexField, BitVec.extractLsb'_toNat, Nat.shiftRight_eq_div_pow]

theorem indexWidthField_eq (a : Scalar) : indexWidthField a = a.toNat / 2 ^ 24 % 2 ^ 3 := by
  simp [indexWidthField, BitVec.extractLsb'_toNat, Nat.shiftRight_eq_div_pow]

theorem endpoint0Field_eq (a : Scalar) : endpoint0Field a = BitVec.ofNat 16 (a.toNat % 2 ^ 16) := by
  apply BitVec.eq_of_toNat_eq
  simp [endpoint0Field, BitVec.extractLsb'_toNat]

theorem endpoint1Field_eq (a : Scalar) : endpoint1Field a = BitVec.ofNat 16 (a.toNat / 2 ^ 16) := by
  apply BitVec.eq_of_toNat_eq
  simp [endpoint1Field, BitVec.extractLsb'_toNat, Nat.shiftRight_eq_div_pow]

theorem colourOf_eq (x : Scalar) :
    colourOf x = ⟨BitVec.ofNat 8 x.toNat, BitVec.ofNat 8 (x.toNat / 2 ^ 8),
      BitVec.ofNat 8 (x.toNat / 2 ^ 16)⟩ := by
  have h : ∀ k, x.extractLsb' k 8 = BitVec.ofNat 8 (x.toNat / 2 ^ k) := by
    intro k
    apply BitVec.eq_of_toNat_eq
    simp [BitVec.extractLsb'_toNat, Nat.shiftRight_eq_div_pow]
  simp only [colourOf, h]
  simp

/-- A packed colour as a sum: the channels do not overlap (R53). -/
theorem packColour_eq (c : Rgb8) :
    packColour c = BitVec.ofNat 32 (c.r.toNat + c.g.toNat * 2 ^ 8 + c.b.toNat * 2 ^ 16) := by
  have hr := c.r.isLt
  have hg := c.g.isLt
  have h1 : c.r.toNat ||| (c.g.toNat <<< 8) = c.r.toNat + c.g.toNat * 2 ^ 8 := by
    rw [Nat.lor_comm, ← Nat.shiftLeft_add_eq_or_of_lt hr, Nat.shiftLeft_eq, Nat.add_comm]
  have h2 : c.r.toNat + c.g.toNat * 2 ^ 8 < 2 ^ 16 := by omega
  rw [packColour, h1, Nat.lor_comm, ← Nat.shiftLeft_add_eq_or_of_lt h2, Nat.shiftLeft_eq, Nat.add_comm]

theorem littleEndian16_eq (lo hi : Byte) :
    littleEndian16 lo hi = BitVec.ofNat 16 (lo.toNat + 2 ^ 8 * hi.toNat) := by
  apply BitVec.eq_of_toNat_eq
  have h1 := lo.isLt
  have h2 := hi.isLt
  have e : (littleEndian16 lo hi).toNat = hi.toNat <<< 8 ||| lo.toNat :=
    BitVec.toNat_append hi lo
  rw [e, ← Nat.shiftLeft_add_eq_or_of_lt h1, Nat.shiftLeft_eq, BitVec.toNat_ofNat]
  omega

/-! ### Block and texel ports -/

theorem getElem_joinHalves_low (lo hi : Block8) (k : Nat) (h : k < 8) :
    (joinHalves lo hi)[k] = lo[k] :=
  Vector.getElem_append_left h

theorem getElem_joinHalves_high (lo hi : Block8) (k : Nat) (h : k < 8) :
    (joinHalves lo hi)[8 + k] = hi[k] := by
  refine (Vector.getElem_append_right (xs := lo) (ys := hi) (i := 8 + k) (by omega) (by omega)).trans ?_
  simp

@[simp] theorem getElem_lowHalf (B : Block) (k : Nat) (h : k < 8) : (lowHalf B)[k] = B[k] := by
  simp [lowHalf]

@[simp] theorem getElem_highHalf (B : Block) (k : Nat) (h : k < 8) :
    (highHalf B)[k] = B[8 + k] := by
  simp [highHalf]

@[simp] theorem getElem_rgbGrid (tex : TexelGrid) (k : Nat) (h : k < 16) :
    (rgbGrid tex)[k] = tex[k].rgb := by
  simp [rgbGrid]

@[simp] theorem getElem_zeroAlphaGrid (tex : ColourGrid) (k : Nat) (h : k < 16) :
    (zeroAlphaGrid tex)[k] = tex[k].withAlpha 0 := by
  simp [zeroAlphaGrid]

/-! ### Wire bits and fields as numbers -/

/-- The arithmetic wire bit of R42 is the model's. -/
theorem wireBit_eq (B : Block) (p : Nat) (hp : p < 128) : wireBit B p = (bitAt B p).toNat := by
  have h : p / 8 < 16 := by omega
  have e : B.toList.getD (p / 8) 0 = B[p / 8] := by
    simp [List.getD, h]
  rw [wireBit, e, bitAt, byteAt_of_lt _ _ h, BitVec.getLsbD, Nat.testBit_eq_decide_div_mod_eq]
  rcases Nat.mod_two_eq_zero_or_one (B[p / 8].toNat / 2 ^ (7 - p % 8)) with h0 | h0 <;> simp [h0]

/-- One more bit of a field: the bits before it move up (R43). -/
theorem wireField_succ (B : Block) (p n : Nat) :
    wireField B p (n + 1) = 2 * wireField B p n + wireBit B (p + n) := by
  simp only [wireField, Finset.sum_range_succ]
  have e : ∑ j ∈ Finset.range n, wireBit B (p + j) * 2 ^ (n + 1 - 1 - j) =
      2 * ∑ j ∈ Finset.range n, wireBit B (p + j) * 2 ^ (n - 1 - j) := by
    rw [Finset.mul_sum]
    refine Finset.sum_congr rfl fun j hj => ?_
    have hj' : j < n := Finset.mem_range.1 hj
    have : n + 1 - 1 - j = (n - 1 - j) + 1 := by omega
    rw [this, Nat.pow_succ]; ring
  rw [e]; simp

/-- The sum R43 writes is the value the BitReader accumulates (R100). -/
theorem wireField_eq (B : Block) (p n : Nat) (h : p + n ≤ 128) : wireField B p n = brValue B p n := by
  induction n with
  | zero => rfl
  | succ n ih => rw [wireField_succ, ih (by omega), wireBit_eq _ _ (by omega)]; rfl

end Sys2Proof.Machine
end

