-- ==== Sys2Proof/Laws/Bc1.lean ====
section
/-! SUPPORT. The BC1 and BC2 functions, one lemma each: bounds of the expander and the blends, the searches of R126 and R127, and the packing of indices and alpha. -/

namespace Sys2Proof.Machine

open Sys2Proof Sys2Proof.Config Sys2Proof.Safety

/-! ### First-seen-wins searches -/

/-- A left fold that replaces the best element only under strict `<` returns the first element of least measure (R126, R127). -/
theorem foldl_first_least {α : Type} (f : α → Nat) (c : α) (l : List α) :
    ∃ (k : Nat) (h : k < (c :: l).length),
      l.foldl (fun m x => if f x < f m then x else m) c = (c :: l)[k] ∧
      (∀ (j : Nat) (hj : j < (c :: l).length), f (c :: l)[k] ≤ f (c :: l)[j]) ∧
      (∀ (j : Nat) (hj : j < (c :: l).length), j < k → f (c :: l)[k] < f (c :: l)[j]) := by
  induction l using List.reverseRecOn with
  | nil => exact ⟨0, by simp, rfl, fun j hj => by simp at hj; subst hj; exact Nat.le_refl _, fun j _ h => by omega⟩
  | append_singleton l x ih =>
    obtain ⟨k, hk, he, hle, hlt⟩ := ih
    have hlen : (c :: (l ++ [x])).length = (c :: l).length + 1 := by simp
    have hold : ∀ (j : Nat) (hj : j < (c :: l).length) (hj' : j < (c :: (l ++ [x])).length),
        (c :: (l ++ [x]))[j] = (c :: l)[j] := by
      intro j hj hj'
      have : c :: (l ++ [x]) = (c :: l) ++ [x] := rfl
      simp only [this]
      exact List.getElem_append_left hj
    have hlast : ∀ (hj' : (c :: l).length < (c :: (l ++ [x])).length),
        (c :: (l ++ [x]))[(c :: l).length] = x := by
      intro hj'; simp
    rw [List.foldl_append, he]
    simp only [List.foldl_cons, List.foldl_nil]
    by_cases hx : f x < f (c :: l)[k]
    · refine ⟨(c :: l).length, by omega, ?_, ?_, ?_⟩
      · rw [if_pos hx, hlast]
      · intro j hj
        rw [hlast]
        rcases Nat.lt_or_ge j (c :: l).length with h | h
        · rw [hold j h hj]; exact Nat.le_of_lt (Nat.lt_of_lt_of_le hx (hle j h))
        · obtain rfl : j = (c :: l).length := by omega
          rw [hlast]
      · intro j hj h
        rw [hlast, hold j h hj]
        exact Nat.lt_of_lt_of_le hx (hle j h)
    · refine ⟨k, by omega, ?_, ?_, ?_⟩
      · rw [if_neg hx, hold k hk]
      · intro j hj
        rw [hold k hk]
        rcases Nat.lt_or_ge j (c :: l).length with h | h
        · rw [hold j h hj]; exact hle j h
        · obtain rfl : j = (c :: l).length := by omega
          rw [hlast]; omega
      · intro j hj h
        rw [hold k hk, hold j (by omega) hj]
        exact hlt j (by omega) h

theorem cons_tail_toList (tex : ColourGrid) : tex[0] :: tex.toList.tail = tex.toList := by
  cases h : tex.toList with
  | nil => have := congrArg List.length h; simp at this
  | cons a l =>
    have : tex[0] = a := by
      have h0 : tex.toList[0]'(by simp) = a := by simp [h]
      simpa using h0
    simp [this]

/-- `minTexel` is the first texel of least key (R127). -/
theorem minTexel_spec (tex : ColourGrid) :
    ∃ m : Fin 16, minTexel tex = tex[m] ∧ (∀ j : Fin 16, key tex[m] ≤ key tex[j]) ∧
      ∀ j : Fin 16, j < m → key tex[m] < key tex[j] := by
  obtain ⟨k, hk, he, hle, hlt⟩ := foldl_first_least key tex[0] tex.toList.tail
  simp only [cons_tail_toList] at hk he hle hlt
  have hk' : k < 16 := by simpa using hk
  refine ⟨⟨k, hk'⟩, by simpa [minTexel] using he, fun j => ?_, fun j hj => ?_⟩
  · simpa using hle j.val (by simp)
  · simpa using hlt j.val (by simp) hj

/-- `maxTexel` is the first texel of greatest key (R127). -/
theorem maxTexel_spec (tex : ColourGrid) :
    ∃ m : Fin 16, maxTexel tex = tex[m] ∧ (∀ j : Fin 16, key tex[j] ≤ key tex[m]) ∧
      ∀ j : Fin 16, j < m → key tex[j] < key tex[m] := by
  have hkey : ∀ c : Rgb8, key c ≤ 1020 := by
    intro c
    have := c.r.isLt; have := c.g.isLt; have := c.b.isLt
    simp only [key]; omega
  obtain ⟨k, hk, he, hle, hlt⟩ := foldl_first_least (fun c => 1020 - key c) tex[0] tex.toList.tail
  have hf : (fun (m x : Rgb8) => if 1020 - key x < 1020 - key m then x else m) =
      fun mx c => if key c > key mx then c else mx := by
    funext m x
    have h1 := hkey m; have h2 := hkey x
    by_cases h : key m < key x
    · rw [if_pos (by omega), if_pos h]
    · rw [if_neg (by omega), if_neg h]
  rw [hf] at he
  simp only [cons_tail_toList] at hk he hle hlt
  have hk' : k < 16 := by simpa using hk
  refine ⟨⟨k, hk'⟩, by simpa [maxTexel] using he, fun j => ?_, fun j hj => ?_⟩
  · have h := hle j.val (by simp)
    have h3 := hkey tex[j.val]
    simp only [Vector.getElem_toList, Fin.getElem_fin] at h ⊢; omega
  · have h := hlt j.val (by simp) hj
    have h2 := hkey tex[k]
    have h3 := hkey tex[j.val]
    simp only [Vector.getElem_toList, Fin.getElem_fin] at h ⊢; omega

theorem natAbs_sq (x : Int) : ((x.natAbs ^ 2 : Nat) : Int) = x ^ 2 := by
  rw [Int.natCast_pow, Int.natAbs_pow_two]

/-- The model's distance is the sum of squares on integers (R125). -/
theorem colourDist_eq (p q : Rgb8) : (colourDist p q : Int) = squaredDistance p q := by
  simp only [colourDist, sqDiff, squaredDistance, Nat.cast_add, natAbs_sq]

theorem sqDiff_le (x y : Byte) : sqDiff x y ≤ 65025 := by
  have h1 := x.isLt; have h2 := y.isLt
  have h : ((x.toNat : Int) - (y.toNat : Int)).natAbs ≤ 255 := by omega
  calc sqDiff x y ≤ 255 ^ 2 := Nat.pow_le_pow_left h 2
    _ = 65025 := by norm_num

/-- `closest` is the lowest index at the least distance (R126). -/
theorem closest_spec (T : Vector Rgb8 4) (c : Rgb8) : IsNearest T c (closest T c).val := by
  obtain ⟨k, hk, he, hle, hlt⟩ := foldl_first_least (fun j : Fin 4 => colourDist T[j] c) 0 [1, 2, 3]
  have hk' : k < 4 := by simpa using hk
  have hget : ∀ (j : Nat) (hj : j < 4) (h : j < ([0, 1, 2, 3] : List (Fin 4)).length),
      ([0, 1, 2, 3] : List (Fin 4))[j] = ⟨j, hj⟩ := by
    intro j hj h; interval_cases j <;> rfl
  have hc : closest T c = ⟨k, hk'⟩ := by
    rw [← hget k hk' (by simpa using hk)]; exact he
  rw [hc]
  refine ⟨hk', fun j => ?_, fun j hj => ?_⟩
  · have := hle j.val (by simp)
    simp only [hget k hk', hget j.val j.isLt] at this
    rw [← colourDist_eq, ← colourDist_eq]; exact_mod_cast this
  · have := hlt j.val (by simp) hj
    simp only [hget k hk', hget j.val j.isLt] at this
    rw [← colourDist_eq, ← colourDist_eq]; exact_mod_cast this

/-! ### Channel bounds -/

theorem expand565_r (u : Rgb565) : (expand565 u).r.toNat = u.toNat / 2 ^ 11 * 4 := by
  have := u.isLt
  simp only [expand565, BitVec.toNat_ofNat, BitVec.extractLsb'_toNat, Nat.shiftRight_eq_div_pow]
  omega

theorem expand565_g (u : Rgb565) : (expand565 u).g.toNat = u.toNat / 2 ^ 5 % 2 ^ 6 * 2 := by
  simp only [expand565, BitVec.toNat_ofNat, BitVec.extractLsb'_toNat, Nat.shiftRight_eq_div_pow]
  omega

theorem expand565_b (u : Rgb565) : (expand565 u).b.toNat = u.toNat % 2 ^ 5 * 4 := by
  simp only [expand565, BitVec.toNat_ofNat, BitVec.extractLsb'_toNat, Nat.shiftRight_eq_div_pow]
  omega

/-- No channel of a colour exceeds `n`. -/
def ChannelsLe (n : Nat) (c : Rgb8) : Prop := c.r.toNat ≤ n ∧ c.g.toNat ≤ n ∧ c.b.toNat ≤ n

/-- No expanded channel exceeds 126 (R122). -/
theorem expand565_le (u : Rgb565) : ChannelsLe 126 (expand565 u) := by
  have := u.isLt
  refine ⟨?_, ?_, ?_⟩
  · rw [expand565_r]; omega
  · rw [expand565_g]; omega
  · rw [expand565_b]; omega

/-- A blend of two channels stays at or below any bound of both (R123). -/
theorem third2_le (v : Bc1Thirds) (a b n : Nat) (ha : a ≤ n) (hb : b ≤ n) : third2 v a b ≤ n := by
  cases v <;> simp only [third2] <;> omega

/-- A blend of colours whose channels do not exceed 126 does not wrap (R123). -/
theorem blendColour_toNat (v : Bc1Thirds) (a b : Rgb8) (ha : ChannelsLe 126 a) (hb : ChannelsLe 126 b) :
    (blendColour v a b).r.toNat = third2 v a.r.toNat b.r.toNat ∧
    (blendColour v a b).g.toNat = third2 v a.g.toNat b.g.toNat ∧
    (blendColour v a b).b.toNat = third2 v a.b.toNat b.b.toNat := by
  have hr := third2_le v _ _ 126 ha.1 hb.1
  have hg := third2_le v _ _ 126 ha.2.1 hb.2.1
  have hbb := third2_le v _ _ 126 ha.2.2 hb.2.2
  simp only [blendColour, BitVec.toNat_ofNat]
  exact ⟨Nat.mod_eq_of_lt (by omega), Nat.mod_eq_of_lt (by omega), Nat.mod_eq_of_lt (by omega)⟩

theorem blendColour_le (v : Bc1Thirds) (a b : Rgb8) (ha : ChannelsLe 126 a) (hb : ChannelsLe 126 b) :
    ChannelsLe 126 (blendColour v a b) := by
  obtain ⟨h1, h2, h3⟩ := blendColour_toNat v a b ha hb
  refine ⟨?_, ?_, ?_⟩
  · rw [h1]; exact third2_le v _ _ 126 ha.1 hb.1
  · rw [h2]; exact third2_le v _ _ 126 ha.2.1 hb.2.1
  · rw [h3]; exact third2_le v _ _ 126 ha.2.2 hb.2.2

/-- No colour of a table has a channel above 126 (R123). -/
theorem colourTable_le (v : Bc1Thirds) (u0 u1 : Rgb565) (k : Fin 4) :
    ChannelsLe 126 (colourTable v u0 u1)[k] := by
  have h0 := expand565_le u0
  have h1 := expand565_le u1
  fin_cases k
  · exact h0
  · exact h1
  · exact blendColour_le v _ _ h0 h1
  · exact blendColour_le v _ _ h1 h0

/-! ### Packing -/

/-- A row byte holds its four indices, column 0 in the top pair (R45, R128). -/
theorem rowPair_packRow (idx : Vector (Fin 4) 16) (r c : Fin 4) :
    rowPair (packRow idx r) c.val = idx[4 * r.val + c.val].val := by
  have key : ∀ a b d e : Fin 4,
      rowPair (BitVec.ofNat 8 ((a.val <<< 6) ||| (b.val <<< 4) ||| (d.val <<< 2) ||| e.val)) 0 = a ∧
      rowPair (BitVec.ofNat 8 ((a.val <<< 6) ||| (b.val <<< 4) ||| (d.val <<< 2) ||| e.val)) 1 = b ∧
      rowPair (BitVec.ofNat 8 ((a.val <<< 6) ||| (b.val <<< 4) ||| (d.val <<< 2) ||| e.val)) 2 = d ∧
      rowPair (BitVec.ofNat 8 ((a.val <<< 6) ||| (b.val <<< 4) ||| (d.val <<< 2) ||| e.val)) 3 = e := by
    decide
  obtain ⟨h0, h1, h2, h3⟩ := key idx[4 * r.val] idx[4 * r.val + 1] idx[4 * r.val + 2] idx[4 * r.val + 3]
  fin_cases c
  · exact h0
  · exact h1
  · exact h2
  · exact h3

/-- The index the decoder takes is the row byte's pair (R130). -/
theorem bc1Index_val (B : Block8) (i : Fin 16) :
    (bc1Index B i).val = rowPair B[4 + i.val / 4] (i.val % 4) := by
  have h : i.val % 4 < 4 := by omega
  simp only [bc1Index, rowPair, Nat.shiftRight_eq_div_pow]
  congr 2
  have e : (4 : Nat) = 2 ^ 2 := rfl
  rw [e, ← Nat.pow_mul]
  congr 1
  omega

/-- A byte of two nibbles (R161). -/
theorem alphaByte_toNat (hi lo : Nat) (h1 : hi < 16) (h2 : lo < 16) :
    (alphaByte hi lo).toNat = 16 * hi + lo := by
  rw [alphaByte, ← Nat.shiftLeft_add_eq_or_of_lt (show lo < 2 ^ 4 by omega), Nat.shiftLeft_eq,
    BitVec.toNat_ofNat]
  omega

theorem alphaNibble_lt (a : Byte) : alphaNibble a < 16 := by
  have := a.isLt
  simp only [alphaNibble]; omega

end Sys2Proof.Machine
end

