-- ==== Sys2Proof/Laws/Bc7.lean ====
section
/-! SUPPORT. What the BC7 functions answer (43_bc7.md): mode detection by byte 0, P-bit expansion and interpolation as numbers, the values of consecutive reads, and the ROM facts R184 and R186 rest on. -/

namespace Sys2Proof.Machine

open Sys2Proof Sys2Proof.Safety

/-! ### Mode detection -/

/-- `ModeOf` from byte 0 alone (R180). -/
def modeOfByte (x : Byte) : Nat × Nat :=
  match (List.range 8).find? fun p => x.getLsbD (7 - p) with
  | some k => (k, k + 1)
  | none => (8, 8)

theorem find?_congr_mem {α : Type} (p q : α → Bool) (l : List α) (h : ∀ x ∈ l, p x = q x) :
    l.find? p = l.find? q := by
  induction l with
  | nil => rfl
  | cons x l ih =>
    rw [List.find?_cons, List.find?_cons, h x (by simp), ih fun y hy => h y (by simp [hy])]

theorem modeOf_eq (B : Block) : modeOf B = modeOfByte B[0] := by
  have h : ∀ p ∈ List.range 8, bitAt B p = B[0].getLsbD (7 - p) := by
    intro p hp
    have hp : p < 8 := List.mem_range.1 hp
    have e : p / 8 = 0 := by omega
    rw [bitAt, e, byteAt_of_lt _ _ (by omega), Nat.mod_eq_of_lt hp]
  exact congrArg (fun o : Option Nat => match o with | some k => (k, k + 1) | none => (8, 8))
    (find?_congr_mem _ _ _ h)

/-- The mode's byte range, for all 256 bytes (R180, R181). -/
theorem modeOfByte_spec : ∀ x : BitVec 8, ∀ m : Fin 8,
    0x80 / 2 ^ m.val ≤ x.toNat → x.toNat < 0x100 / 2 ^ m.val → modeOfByte x = (m.val, m.val + 1) := by
  decide

theorem modeOfByte_zero : modeOfByte 0 = (8, 8) := by decide

/-! ### Arithmetic that does not wrap -/

/-- The three parts of an expanded component do not overlap (R190). -/
theorem pExp_toNat (v pb : Nat) (hv : v < 16) (hp : pb < 2) :
    (pExp v pb).toNat = 16 * v + 8 * pb + v / 2 := by
  have h : ∀ (v : Fin 16) (pb : Fin 2),
      (pExp v.val pb.val).toNat = 16 * v.val + 8 * pb.val + v.val / 2 := by decide
  exact h ⟨v, hv⟩ ⟨pb, hp⟩

theorem weight_le (bits i : Nat) : weight bits i ≤ 64 := by
  have h : ∀ (l : List Nat), (∀ x ∈ l, x ≤ 64) → l.getD i 0 ≤ 64 := by
    intro l hl
    rw [List.getD_eq_getElem?_getD]
    by_cases hi : i < l.length
    · simpa [hi] using hl _ (List.getElem_mem hi)
    · simp [List.getElem?_eq_none (Nat.le_of_not_lt hi)]
  unfold weight
  split
  · exact h _ (by decide)
  · exact h _ (by decide)
  · exact h _ (by decide)
  · omega

/-- The weighted sum stays below 2^14, so the shifted value fits its byte (R189). -/
theorem interp_toNat (e0 e1 : Byte) (i bits : Nat) :
    (interp e0 e1 i bits).toNat =
      ((64 - weight bits i) * e0.toNat + weight bits i * e1.toNat + roundTerm bits) / 64 ∧
    ((64 - weight bits i) * e0.toNat + weight bits i * e1.toNat + roundTerm bits) / 64 ≤ 255 := by
  have hw := weight_le bits i
  have h0 := e0.isLt
  have h1 := e1.isLt
  have hr : roundTerm bits ≤ 32 := by unfold roundTerm; split <;> omega
  have ha : (64 - weight bits i) * e0.toNat ≤ (64 - weight bits i) * 255 :=
    Nat.mul_le_mul_left _ (by omega)
  have hb : weight bits i * e1.toNat ≤ weight bits i * 255 := Nat.mul_le_mul_left _ (by omega)
  have hle : ((64 - weight bits i) * e0.toNat + weight bits i * e1.toNat + roundTerm bits) / 64 ≤ 255 := by
    omega
  refine ⟨?_, hle⟩
  rw [interp, BitVec.toNat_ofNat, Nat.shiftRight_eq_div_pow]
  exact Nat.mod_eq_of_lt (by omega)

/-! ### Consecutive reads -/

@[simp] theorem length_readFields (B : Block) (cur : Nat) (ws : List Nat) :
    (readFields B cur ws).length = ws.length := by
  induction ws generalizing cur with
  | nil => rfl
  | cons w ws ih => simp [readFields, ih]

/-- The `k`-th value read starts after the widths before it (R100, R198). -/
theorem readFields_getD (B : Block) (cur : Nat) (ws : List Nat) (k : Nat) :
    (readFields B cur ws).getD k 0 = brValue B (cur + (ws.take k).sum) (ws.getD k 0) := by
  induction ws generalizing cur k with
  | nil => simp [readFields, brValue]
  | cons w ws ih =>
    cases k with
    | zero => simp [readFields, brRead]
    | succ k =>
      simp only [readFields, List.getD_cons_succ, brRead, ih, List.take_succ_cons, List.sum_cons,
        Nat.add_assoc]

/-! ### The Mode0 fields -/

theorem mode0IndexWidth_eq (p i : Nat) : mode0IndexWidth p i = Safety.mode0IndexBits p i := by
  simp [mode0IndexWidth, anchors, Safety.mode0IndexBits, Config.mode0IndexBits, List.range,
    List.range.loop, anchorOf]

/-- The 18 components from wire bit 5, 4 bits each, and the 6 P-bits from wire bit 77 (R191). -/
theorem mode0_head_field (p k : Nat) (hk : k < 24) :
    5 + ((mode0Widths p).take k).sum = (if k < 18 then 5 + 4 * k else 59 + k) ∧
    (mode0Widths p).getD k 0 = if k < 18 then 4 else 1 := by
  have h : ∀ k < 24,
      5 + ((List.replicate 18 4 ++ List.replicate 6 1).take k).sum =
        (if k < 18 then 5 + 4 * k else 59 + k) ∧
      (List.replicate 18 4 ++ List.replicate 6 1).getD k 0 = if k < 18 then 4 else 1 := by
    decide
  unfold mode0Widths
  rw [List.take_append_of_le_length (by simp; omega), List.getD_append _ _ _ _ (by simp; omega)]
  exact h k hk

/-- Index field `i` starts at `start(i)` and has the width R194 gives it. -/
theorem mode0_index_field (p i : Nat) (hi : i < 16) :
    5 + ((mode0Widths p).take (24 + i)).sum = mode0IndexStart p i ∧
    (mode0Widths p).getD (24 + i) 0 = Safety.mode0IndexBits p i := by
  have hsum : ∀ n, ((List.range n).map (mode0IndexWidth p)).sum =
      ∑ j ∈ Finset.range n, Safety.mode0IndexBits p j := by
    intro n
    induction n with
    | zero => rfl
    | succ n ih => rw [List.range_succ, Finset.sum_range_succ, ← ih]; simp [mode0IndexWidth_eq]
  have hl : (List.replicate 18 Config.mode0ComponentBits ++ List.replicate 6 1).length = 24 := rfl
  unfold mode0Widths
  constructor
  · rw [← hl, List.take_length_add_append, List.sum_append, mode0IndexStart, ← List.map_take,
      List.take_range, Nat.min_eq_left (Nat.le_of_lt hi), hsum]
    simp [Config.mode0ComponentBits]
    omega
  · rw [List.getD_append_right _ _ _ _ (by rw [hl]; omega), hl]
    simp [hi, mode0IndexWidth_eq]

/-- Every index field of the 16 partitions lies in the block, and the last one ends at wire bit 128 (R194, R199). -/
theorem mode0IndexStart_le : ∀ p < 16, mode0IndexStart p 16 = 128 ∧
    ∀ i < 16, mode0IndexStart p i + Safety.mode0IndexBits p i ≤ 128 := by
  decide

/-! ### The ROMs -/

/-- Every partition of two and of three subsets has ids below the count, every id, and id 0 at position 0 (R184). -/
theorem subsetOf_covers : ∀ ns ∈ [2, 3], ∀ p < 64,
    (∀ pos < 16, subsetOf ns p pos < ns) ∧
    (∀ id < ns, ∃ pos < 16, subsetOf ns p pos = id) ∧ subsetOf ns p 0 = 0 := by
  decide

/-- Every anchor position is a position of its own subset (R186). -/
theorem subsetOf_anchorOf : ∀ ns ∈ [1, 2, 3], ∀ p < 64, ∀ sub < ns,
    anchorOf ns p sub < 16 ∧ subsetOf ns p (anchorOf ns p sub) = sub := by
  decide

end Sys2Proof.Machine
end

