-- ==== Sys2Proof/Laws/Decode.lean ====
section
/-! SUPPORT. The fields of a command word as arithmetic, and what the decoder answers in terms of them. -/

namespace Sys2Proof

theorem rsvField_eq (w : CmdWord) : rsvField w = w.toNat / 2 ^ 11 := by
  have := w.isLt
  simp only [rsvField, BitVec.extractLsb'_toNat, Nat.shiftRight_eq_div_pow]
  omega

theorem nField_eq (w : CmdWord) : nField w = w.toNat / 2 ^ 5 % 2 ^ 6 := by
  simp only [nField, BitVec.extractLsb'_toNat, Nat.shiftRight_eq_div_pow]

theorem opField_eq (w : CmdWord) : opField w = w.toNat % 2 ^ 5 := by
  simp [opField, BitVec.extractLsb'_toNat]

theorem nField_lt (w : CmdWord) : nField w < 64 := by rw [nField_eq]; omega

theorem opField_lt (w : CmdWord) : opField w < 32 := by rw [opField_eq]; omega

/-- A word is its three fields (R61). -/
theorem toNat_eq_fields (w : CmdWord) :
    w.toNat = rsvField w * 2048 + nField w * 32 + opField w := by
  rw [rsvField_eq, nField_eq, opField_eq]; omega

theorem opcode_lt (i : Instr) : i.opcode < 32 := by cases i <;> simp [Instr.opcode]

theorem width_lt (i : Instr) (h : i.wellFormed = true) : i.width < 64 := by
  cases i <;> simp_all [Instr.wellFormed, Instr.width]

/-- The word `OP | (N << 5)` as a number (R64). -/
theorem encode_toNat (i : Instr) (h : i.wellFormed = true) :
    (encode i).toNat = i.width * 32 + i.opcode := by
  have h1 := opcode_lt i
  have h2 := width_lt i h
  have e : i.opcode ||| (i.width <<< 5) = i.width * 32 + i.opcode := by
    rw [Nat.lor_comm, ← Nat.shiftLeft_add_eq_or_of_lt (show i.opcode < 2 ^ 5 by omega),
      Nat.shiftLeft_eq]
  rw [encode, e, BitVec.toNat_ofNat]
  omega

/-- Where the decoder accepts a word: `RSV` is 0, `OP` is a row of R64, and `N` is 0 unless the row has one. -/
theorem decode_ok_iff (w : CmdWord) (i : Instr) :
    decode w = .ok i ↔
      rsvField w = 0 ∧ opRow (opField w) (nField w) = some i ∧
        (nField w = 0 ∨ takesWidth (opField w) = true) := by
  unfold decode
  by_cases hr : rsvField w = 0
  · rw [if_neg (by simpa using hr)]
    cases ho : opRow (opField w) (nField w) with
    | none => simp
    | some j =>
      simp only [hr, Option.some.injEq, true_and]
      by_cases hn : nField w = 0
      · simp [hn]
      · cases ht : takesWidth (opField w) <;> simp [hn]
  · rw [if_pos hr]; simp [hr]

/-- A row of the opcode map has its own `OP`, and its `N` where the row has one. -/
theorem opRow_some (op n : Nat) (i : Instr) (h : opRow op n = some i) :
    op = i.opcode ∧ (takesWidth op = true → n = i.width) ∧ (takesWidth op = false → i.width = 0) := by
  unfold opRow at h
  split at h <;> simp only [Option.some.injEq, reduceCtorEq] at h <;> subst h <;>
    simp [Instr.opcode, Instr.width, takesWidth]

/-- The row of a command's own `OP` and `N` is that command. -/
theorem opRow_self (i : Instr) : opRow i.opcode i.width = some i := by cases i <;> rfl

theorem width_zero_or_takes (i : Instr) : i.width = 0 ∨ takesWidth i.opcode = true := by
  cases i <;> simp [Instr.width, Instr.opcode, takesWidth]

end Sys2Proof
end

