-- ==== Sys2Proof/Laws/Exec.lean ====
section
/-! SUPPORT. What a command can do, said once: it finishes with a state that differs only in the elements R22 lists against the command, or it raises a failing status on the state it was given. -/

namespace Sys2Proof.Machine

open Sys2Proof

/-- The states a command may finish with: every element the command does not write keeps its value (R23). -/
structure FinishesFrom (i : Instr) (s u : State) : Prop where
  status_eq : u.status = s.status
  fault_eq : u.fault = s.fault
  params_eq : u.params = s.params
  ports_eq : u.ports = s.ports
  pending_eq : u.pending = s.pending
  brBuf_eq : i ≠ .brLoad → u.brBuf = s.brBuf
  brCur_eq : i ≠ .brLoad → (∀ n, i ≠ .brRead n) → u.brCur = s.brCur
  bwBuf_eq : i ≠ .bwClear → (∀ n, i ≠ .bwWrite n) → u.bwBuf = s.bwBuf
  bwCur_eq : i ≠ .bwClear → (∀ n, i ≠ .bwWrite n) → u.bwCur = s.bwCur
  outBlock_eq : i ∉ [.bwEmit, .bc1Enc, .bc2Enc] → u.outBlock = s.outBlock
  outTex_eq : i ∉ [.bc1Dec, .bc1Table, .bc2Dec, .bc7Dec] → u.outTex = s.outTex
  outVal_eq : (∀ n, i ≠ .brRead n) →
    i ∉ [.bc1Quant, .bc1Expand, .bc1Closest, .bc7Dec, .bc7Mode, .bc7Part, .bc7Anchor, .bc7Pexp,
      .bc7Interp] → u.outVal = s.outVal

/-- The failing statuses a command can raise (R251). -/
def Raises : Instr → Status → Prop
  | .brRead _, st => st = .badOperand ∨ st = .brOverrun
  | .bwWrite _, st => st = .badOperand ∨ st = .bwOverflow
  | .bc7Dec, st => st = .unsupported
  | .bc7Part, st => st = .badOperand
  | .bc7Anchor, st => st = .badOperand
  | .bc7Interp, st => st = .badOperand
  | .bc7Enc, st => st = .unsupported
  | _, _ => False

/-- A command finishes within its frame, or raises one of its failing statuses. -/
theorem exec_cases (i : Instr) (s : State) :
    (i ≠ .bc7Enc ∧ ∃ u, exec i s = finish u ∧ FinishesFrom i s u) ∨
    (∃ st, exec i s = raise st s ∧ Raises i st) := by
  cases i with
  | brRead n =>
    simp only [exec, execBrRead]
    split
    · exact .inr ⟨_, rfl, .inl rfl⟩
    · split
      · exact .inr ⟨_, rfl, .inr rfl⟩
      · exact .inl ⟨by simp, _, rfl, by constructor <;> simp⟩
  | bwWrite n =>
    simp only [exec, execBwWrite]
    split
    · exact .inr ⟨_, rfl, .inl rfl⟩
    · split
      · exact .inr ⟨_, rfl, .inr rfl⟩
      · exact .inl ⟨by simp, _, rfl, by constructor <;> simp⟩
  | bc7Dec =>
    simp only [exec, execBc7Dec]
    split
    · exact .inr ⟨_, rfl, rfl⟩
    · exact .inl ⟨by simp, _, rfl, by constructor <;> simp⟩
  | bc7Part =>
    simp only [exec, execBc7Part]
    split
    · exact .inr ⟨_, rfl, rfl⟩
    · exact .inl ⟨by simp, _, rfl, by constructor <;> simp⟩
  | bc7Anchor =>
    simp only [exec, execBc7Anchor]
    split
    · exact .inr ⟨_, rfl, rfl⟩
    · exact .inl ⟨by simp, _, rfl, by constructor <;> simp⟩
  | bc7Interp =>
    simp only [exec, execBc7Interp]
    split
    · exact .inr ⟨_, rfl, rfl⟩
    · exact .inl ⟨by simp, _, rfl, by constructor <;> simp⟩
  | bc7Enc => exact .inr ⟨_, rfl, rfl⟩
  | _ => exact .inl ⟨by simp, _, rfl, by constructor <;> simp⟩

theorem isFailure_of_raises (i : Instr) (st : Status) (h : Raises i st) : st.isFailure = true := by
  cases i <;> cases st <;> simp_all [Raises, Status.isFailure]

/-- `exec_cases` as updates: what a next state of a command looks like. -/
theorem exec_next_cases (i : Instr) (s t : State) (h : exec i s = .next t) :
    (i ≠ .bc7Enc ∧ ∃ u, t = { u with status := 0 } ∧ FinishesFrom i s u) ∨
    (∃ st, Raises i st ∧ t = { s with status := st.code, fault := true }) := by
  rcases exec_cases i s with ⟨hi, u, hu, hf⟩ | ⟨st, hst, hr⟩
  · refine .inl ⟨hi, u, ?_, hf⟩
    rw [hu, finish_eq] at h
    exact (Host.Outcome.next.inj h).symm
  · refine .inr ⟨st, hr, ?_⟩
    rw [hst, raise_eq st s (isFailure_of_raises i st hr)] at h
    exact (Host.Outcome.next.inj h).symm

/-- A step is: wait, reset, perform the decoded command, or end an illegal word. -/
theorem step_cases (s : State) :
    (s.pending = [] ∧ step s = .next s) ∨
    (∃ rest, s.pending = .reset :: rest ∧ step s = .next (s.applyReset rest)) ∨
    (∃ c rest i, s.pending = .command c :: rest ∧ decode c.cmd = .ok i ∧
      step s = releasePorts (exec i (s.present c rest))) ∨
    (∃ c rest r, s.pending = .command c :: rest ∧ decode c.cmd = .error r ∧
      step s = .next { s with
        status := 2, fault := true, ports := Operands.idle, pending := rest }) := by
  unfold step
  split
  · next h => exact .inl ⟨h, rfl⟩
  · next rest h => exact .inr (.inl ⟨rest, h, rfl⟩)
  · next c rest h =>
    cases hd : decode c.cmd with
    | ok i => exact .inr (.inr (.inl ⟨c, rest, i, h, hd, by simp [perform, hd]⟩))
    | error r =>
      refine .inr (.inr (.inr ⟨c, rest, r, h, hd, ?_⟩))
      simp [perform, hd, State.present]

/-- A legal command word is its command (R60). -/
theorem perform_of_ok (w : CmdWord) (s : State) (i : Instr) (h : decode w = .ok i) :
    perform w s = exec i s := by
  simp [perform, h]

/-- An illegal command word ends with ILLEGAL_CMD and does nothing else (R63, R65). -/
theorem perform_of_error (w : CmdWord) (s : State) (r : Reject) (h : decode w = .error r) :
    perform w s = .next { s with status := 2, fault := true } := by
  simp [perform, h]

/-- A step with a legal command word next, from what the command answers. -/
theorem step_of_exec (s t : State) (c : Transaction) (rest : List HostEvent) (i : Instr)
    (hp : s.pending = .command c :: rest) (hd : decode c.cmd = .ok i)
    (he : exec i (s.present c rest) = .next t) :
    step s = .next { t with ports := Operands.idle } := by
  simp [step, hp, perform, hd, he]

/-- A step with an illegal command word next (R63, R65). -/
theorem step_of_illegal (s : State) (c : Transaction) (rest : List HostEvent) (r : Reject)
    (hp : s.pending = .command c :: rest) (hd : decode c.cmd = .error r) :
    step s = .next { s with
      status := 2, fault := true, ports := Operands.idle, pending := rest } := by
  simp [step, hp, perform, hd, State.present]

/-! ### Running several steps -/

/-- The first of `k + 1` steps, then the other `k`. -/
theorem run_succ (k : Nat) (s u : State) (h : step s = .next u) :
    Sys2Proof.core.run (k + 1) s = Sys2Proof.core.run k u := by
  have h' : Sys2Proof.core.step s = .next u := h
  simp only [Host.Core.run, h']

/-- A step that performs command `i` on its operands, from what the command answers. -/
theorem run_command (k : Nat) (s t : State) (c : Transaction) (rest : List HostEvent) (i : Instr)
    (hp : s.pending = .command c :: rest) (hd : decode c.cmd = .ok i)
    (he : exec i (s.present c rest) = .next t) :
    Sys2Proof.core.run (k + 1) s = Sys2Proof.core.run k { t with ports := Operands.idle } :=
  run_succ k s _ (step_of_exec s t c rest i hp hd he)

end Sys2Proof.Machine
end

