-- ==== Sys2Proof/Laws/PerInstr.lean ====
section
/-! SUPPORT. The family EncodeFields: the three fields of each command's own word (30_encoding.md R61, R64). -/

namespace Sys2Proof.Laws.EncodeFields

open Sys2Proof

/-- The word of a well-formed command has `RSV` = 0, the command's `OP`, and the command's `N`. -/
def Statement (i : Instr) : Prop :=
  i.wellFormed = true →
    rsvField (encode i) = 0 ∧ opField (encode i) = i.opcode ∧ nField (encode i) = i.width

/-- The fields follow from the word as a number. -/
theorem of_toNat (i : Instr) : Statement i := by
  intro h
  have e := encode_toNat i h
  have h1 := opcode_lt i
  have h2 := width_lt i h
  rw [rsvField_eq, opField_eq, nField_eq, e]
  omega

theorem nop : Statement .nop := of_toNat _
theorem brLoad : Statement .brLoad := of_toNat _
theorem brRead (n : Nat) : Statement (.brRead n) := of_toNat _
theorem bwClear : Statement .bwClear := of_toNat _
theorem bwWrite (n : Nat) : Statement (.bwWrite n) := of_toNat _
theorem bwEmit : Statement .bwEmit := of_toNat _
theorem bc1Enc : Statement .bc1Enc := of_toNat _
theorem bc1Dec : Statement .bc1Dec := of_toNat _
theorem bc1Quant : Statement .bc1Quant := of_toNat _
theorem bc1Expand : Statement .bc1Expand := of_toNat _
theorem bc1Table : Statement .bc1Table := of_toNat _
theorem bc1Closest : Statement .bc1Closest := of_toNat _
theorem bc2Enc : Statement .bc2Enc := of_toNat _
theorem bc2Dec : Statement .bc2Dec := of_toNat _
theorem bc7Dec : Statement .bc7Dec := of_toNat _
theorem bc7Mode : Statement .bc7Mode := of_toNat _
theorem bc7Part : Statement .bc7Part := of_toNat _
theorem bc7Anchor : Statement .bc7Anchor := of_toNat _
theorem bc7Pexp : Statement .bc7Pexp := of_toNat _
theorem bc7Interp : Statement .bc7Interp := of_toNat _
theorem bc7Enc : Statement .bc7Enc := of_toNat _

end Sys2Proof.Laws.EncodeFields
end

