-- ==== Sys2Proof/Tests/Slice0.lean ====
section
/-! SUPPORT. The model's own tests: ill-formed commands, command words written from 30_encoding.md R61 and R64, one or two results per command with the values of 95_test_vectors.md, and for every statement with hypotheses a concrete case that meets them. -/

namespace Sys2Proof.Tests

open Sys2Proof Sys2Proof.Machine Sys2Proof.Safety

/-! ### Small states -/

/-- A block from its first bytes; the others are 0. -/
def bytes (l : List Nat) : Block := Vector.ofFn fun k => BitVec.ofNat 8 (l.getD k.val 0)

/-- A texel grid from its first texels; the others are (0,0,0,0). -/
def texels (l : List (Nat × Nat × Nat × Nat)) : TexelGrid :=
  Vector.ofFn fun k =>
    let c := l.getD k.val (0, 0, 0, 0)
    ⟨BitVec.ofNat 8 c.1, BitVec.ofNat 8 c.2.1, BitVec.ofNat 8 c.2.2.1, BitVec.ofNat 8 c.2.2.2⟩

/-- The reset state with operands on the ports. -/
def withPorts (o : Operands) : State := { State.reset with ports := o }

def withA (a : Scalar) : State := withPorts { Operands.idle with inA := a }

def withB (b : Scalar) : State := withPorts { Operands.idle with inB := b }

def withBlock (l : List Nat) : State := withPorts { Operands.idle with inBlock := bytes l }

def withTexels (l : List (Nat × Nat × Nat × Nat)) : State :=
  withPorts { Operands.idle with inTex := texels l }

/-- The reset state with a command word presented next, on idle operands. -/
def withWord (w : CmdWord) : State :=
  { State.reset with pending := [.command { cmd := w, operands := Operands.idle }] }

/-- One field of the state a result holds. -/
def field {α : Type} (f : State → α) (r : Result) : Option α := (nextState? r).map f

/-- The status and the scalar result. -/
def outcome (r : Result) : Option (BitVec 3 × Scalar) := field (fun t => (t.status, t.outVal)) r

/-- The source's literal texels (95_test_vectors.md L1-1), texel `i` with alpha `17 i`. -/
def literalTexels : List (Nat × Nat × Nat × Nat) :=
  [(0, 1, 2, 0), (3, 4, 5, 17), (6, 7, 8, 34), (9, 11, 12, 51),
   (0, 1, 2, 68), (0, 1, 2, 85), (3, 4, 5, 102), (6, 7, 8, 119)] ++
  [(9, 11, 12, 136), (3, 4, 5, 153), (6, 7, 8, 170), (9, 11, 12, 187),
   (0, 1, 2, 204), (3, 4, 5, 221), (6, 7, 8, 238), (9, 11, 12, 255)]

/-- Vector V7-1, a Mode0 block (95_test_vectors.md L2.4). -/
def blockV71 : List Nat :=
  [0x80, 0x78, 0xF1, 0x69, 0xE2, 0x5A, 0xD3, 0x4B, 0xC7, 0x82, 0xDF, 0xD5, 0x8D, 0x11, 0xF5, 0x8F]

/-! ### Well-formed commands: each check refuses an ill-formed term -/

theorem test_brRead_64_illFormed : (Instr.brRead 64).wellFormed = false := by decide
theorem test_bwWrite_64_illFormed : (Instr.bwWrite 64).wellFormed = false := by decide
theorem test_widths_63_wellFormed :
    (Instr.brRead 63).wellFormed = true ∧ (Instr.bwWrite 63).wellFormed = true := by decide

/-! ### Decoding: words written out as RSV, N, OP -/

theorem test_decode_bitstream :
    decode 0b00000_000000_00000#16 = .ok .nop ∧
    decode 0b00000_000000_00001#16 = .ok .brLoad ∧
    decode 0b00000_101000_00010#16 = .ok (.brRead 40) ∧
    decode 0b00000_000000_00011#16 = .ok .bwClear ∧
    decode 0b00000_010101_00100#16 = .ok (.bwWrite 21) ∧
    decode 0b00000_000000_00101#16 = .ok .bwEmit := ⟨rfl, rfl, rfl, rfl, rfl, rfl⟩

theorem test_decode_bc1_bc2 :
    decode 0b00000_000000_01000#16 = .ok .bc1Enc ∧
    decode 0b00000_000000_01001#16 = .ok .bc1Dec ∧
    decode 0b00000_000000_01010#16 = .ok .bc1Quant ∧
    decode 0b00000_000000_01011#16 = .ok .bc1Expand ∧
    decode 0b00000_000000_01100#16 = .ok .bc1Table ∧
    decode 0b00000_000000_01101#16 = .ok .bc1Closest ∧
    decode 0b00000_000000_10000#16 = .ok .bc2Enc ∧
    decode 0b00000_000000_10001#16 = .ok .bc2Dec := ⟨rfl, rfl, rfl, rfl, rfl, rfl, rfl, rfl⟩

theorem test_decode_bc7 :
    decode 0b00000_000000_11000#16 = .ok .bc7Dec ∧
    decode 0b00000_000000_11001#16 = .ok .bc7Mode ∧
    decode 0b00000_000000_11010#16 = .ok .bc7Part ∧
    decode 0b00000_000000_11011#16 = .ok .bc7Anchor ∧
    decode 0b00000_000000_11100#16 = .ok .bc7Pexp ∧
    decode 0b00000_000000_11101#16 = .ok .bc7Interp ∧
    decode 0b00000_000000_11110#16 = .ok .bc7Enc := ⟨rfl, rfl, rfl, rfl, rfl, rfl, rfl⟩

/-- NOP-2, NOP-3 and R242's 0x8502; reserved `OP` 0x06 and 0x1F. -/
theorem test_decode_rejects :
    decode 0x0500#16 = .error (.widthNotAllowed 0 40) ∧
    decode 0x0800#16 = .error (.reservedBits 1) ∧
    decode 0x8502#16 = .error (.reservedBits 16) ∧
    decode 0x0006#16 = .error (.reservedOp 6) ∧
    decode 0x001F#16 = .error (.reservedOp 31) := ⟨rfl, rfl, rfl, rfl, rfl⟩

/-! ### One command each -/

/-- NOP-1. -/
theorem test_nop : exec .nop State.reset = .next State.reset := rfl

/-- BR-1: the cursor goes back to 0. -/
theorem test_brLoad :
    field (fun t => (t.brBuf[1], t.brCur))
      (exec .brLoad { withBlock [0xA5, 0x3C] with brCur := 77 }) = some (0x3C, 0) := by decide

/-- BR-3: `br.read 7` at cursor 3 of A5 3C gives 20. -/
theorem test_brRead_unaligned :
    field (fun t => (t.outVal, t.brCur))
      (exec (.brRead 7) { State.reset with brBuf := bytes [0xA5, 0x3C], brCur := 3 }) =
      some (20, 10) := by decide

/-- BR-13: the width is checked before the cursor. -/
theorem test_brRead_priority :
    exec (.brRead 40) { State.reset with brCur := 120 } =
      .next { State.reset with brCur := 120, status := 3, fault := true } := rfl

/-- BW-1. -/
theorem test_bwClear :
    exec .bwClear { State.reset with bwBuf := bytes [0xA0], bwCur := 3 } = .next State.reset := rfl

/-- BW-3: `bw.write 8` of 0xC3 at cursor 3 of A0 gives B8 60. -/
theorem test_bwWrite_unaligned :
    field (fun t => (t.bwBuf, t.bwCur))
      (exec (.bwWrite 8) { withA 0xC3 with bwBuf := bytes [0xA0], bwCur := 3 }) =
      some (bytes [0xB8, 0x60], 11) := by decide

/-- BW-7. -/
theorem test_bwWrite_overflow :
    exec (.bwWrite 2) { State.reset with bwCur := 128 } =
      .next { State.reset with bwCur := 128, status := 5, fault := true } := rfl

/-- The example of R110. -/
theorem test_bwEmit :
    field State.outBlock (exec .bwEmit { State.reset with bwBuf := bytes [0x2D], bwCur := 8 }) =
      some (bytes [0x2D]) := by decide

set_option maxRecDepth 20000 in
/-- BC1E-1. -/
theorem test_bc1Enc :
    field State.outBlock (exec .bc1Enc (withTexels literalTexels)) =
      some (bytes [0x00, 0x00, 0xA3, 0x10, 0x2D, 0x0B, 0x6D, 0x2D]) := rfl

/-- BC1D-3, the texels of row 3; `u0 <= u1` is no three-colour mode. -/
theorem test_bc1Dec :
    field (fun t => (t.outTex[12], t.outTex[13], t.outTex[14], t.outTex[15]))
      (exec .bc1Dec (withBlock [0, 0, 0xFF, 0xFF, 0x1B, 0x1B, 0x1B, 0x1B, 0xEE])) =
      some (⟨0, 0, 0, 0⟩, ⟨124, 126, 124, 0⟩, ⟨41, 42, 41, 0⟩, ⟨82, 84, 82, 0⟩) := by decide

/-- (0,255,0): 0x0FE0 with OR_OVERLAP. -/
theorem test_bc1Quant_overlap : outcome (exec .bc1Quant (withB 0xFF00)) = some (0, 0x0FE0) := by
  decide

/-- (0,255,0): 0x07E0 with MASK. -/
theorem test_bc1Quant_mask :
    outcome (exec .bc1Quant { withB 0xFF00 with params := ⟨.mask, .perTerm⟩ }) = some (0, 0x07E0) := by
  decide

/-- 0x1234 expands to (8,34,80). -/
theorem test_bc1Expand : outcome (exec .bc1Expand (withA 0x1234)) = some (0, 0x502208) := by decide

/-- 0x1234, 0xABCD with PER_TERM. -/
theorem test_bc1Table_perTerm :
    field (fun t => (t.outTex[1], t.outTex[2], t.outTex[3], t.outTex[4]))
      (exec .bc1Table (withA 0xABCD1234)) =
      some (⟨84, 60, 52, 0⟩, ⟨33, 42, 70, 0⟩, ⟨58, 51, 60, 0⟩, ⟨0, 0, 0, 0⟩) := by decide

/-- 0x1234, 0xABCD: `T[2]` with DIV_FIRST, `T[3]` with EXACT. -/
theorem test_bc1Table_variants :
    field (fun t => t.outTex[2])
      (exec .bc1Table { withA 0xABCD1234 with params := ⟨.orOverlap, .divFirst⟩ }) =
        some ⟨32, 42, 69, 0⟩ ∧
    field (fun t => t.outTex[3])
      (exec .bc1Table { withA 0xABCD1234 with params := ⟨.orOverlap, .exact⟩ }) =
        some ⟨58, 51, 61, 0⟩ := by decide

/-- The tie of entries 2 and 3 goes to 2. -/
theorem test_bc1Closest_tie :
    outcome (exec .bc1Closest (withPorts { Operands.idle with inA := 0xFFFF0000, inB := 0x3E3F3D })) =
      some (0, 2) := by decide

set_option maxRecDepth 20000 in
/-- BC2E-1. -/
theorem test_bc2Enc :
    field State.outBlock (exec .bc2Enc (withTexels literalTexels)) =
      some (bytes [0x01, 0x23, 0x45, 0x67, 0x89, 0xAB, 0xCD, 0xEF, 0x00, 0x00, 0xA3, 0x10, 0x2D,
        0x0B, 0x6D, 0x2D]) := rfl

/-- BC2D-3. -/
theorem test_bc2Dec :
    field (fun t => (t.outTex[0], t.outTex[1]))
      (exec .bc2Dec (withBlock [0xF0, 0, 0, 0, 0, 0, 0, 0, 0xFF, 0xFF, 0xFF, 0xFF])) =
      some (⟨124, 126, 124, 240⟩, ⟨124, 126, 124, 0⟩) := by decide

/-- V7-1: texels 0, 3 (an anchor), 10 and 15, and `OUT_VAL`. -/
theorem test_bc7Dec_mode0 :
    field (fun t => (t.outTex[0], t.outTex[3], t.outTex[10], t.outTex[15], t.outVal))
      (exec .bc7Dec (withBlock blockV71)) =
      some (⟨107, 115, 123, 255⟩, ⟨78, 100, 122, 255⟩, ⟨214, 165, 0, 255⟩, ⟨113, 121, 147, 255⟩,
        0x30) := by decide

/-- Byte 0 = 0x7F is Mode1. -/
theorem test_bc7Dec_unsupported :
    exec .bc7Dec (withBlock [0x7F]) =
      .next { withBlock [0x7F] with status := 1, fault := true } := rfl

theorem test_bc7Mode : outcome (exec .bc7Mode (withBlock [0x13, 0xFF])) = some (0, 0x23) := by decide

theorem test_bc7Part :
    outcome (exec .bc7Part (withA 0x0F3F02)) = some (0, 1) ∧
    outcome (exec .bc7Part (withA 0x0F3F03)) = some (0, 0) := by decide

theorem test_bc7Anchor :
    outcome (exec .bc7Anchor (withA 0x02003F03)) = some (0, 8) ∧
    outcome (exec .bc7Anchor (withA 0x02000002)) = some (3, 0) := by decide

theorem test_bc7Pexp : outcome (exec .bc7Pexp (withA 0x10D)) = some (0, 0xDE) := by decide

/-- `bits` = 3 has no rounding term, `bits` = 2 has it. -/
theorem test_bc7Interp :
    outcome (exec .bc7Interp (withA 0x0301FF00)) = some (0, 35) ∧
    outcome (exec .bc7Interp (withA 0x0201FF00)) = some (0, 84) := by decide

theorem test_bc7Enc :
    exec .bc7Enc State.reset = .next { State.reset with status := 1, fault := true } := rfl

/-- The host's two functions: the word of `br.read 4` is read and run as the first command after reset. -/
theorem test_fetchWord :
    decodeTableWord 16 0x0082 = some (.brRead 4) ∧
    step (State.reset.withFetchWord 16 0x0082) = .next { State.reset with brCur := 4 } := ⟨rfl, rfl⟩

/-! ### Witnesses: for each statement with hypotheses, states and operands that meet them -/

theorem witness_DecodeOfEncodeIsTheCommand :
    (Instr.brRead 0).wellFormed = true ∧ (Instr.brRead 63).wellFormed = true ∧
    (Instr.bwWrite 63).wellFormed = true ∧ Instr.bc7Enc.wellFormed = true := by decide

theorem witness_DecodedWordIsItsEncoding :
    decode 0x07E2 = .ok (.brRead 63) ∧ decode 0x0000 = .ok .nop := ⟨rfl, rfl⟩

/-- The first and last `RSV`, and `N` = 1 and 63 on commands without `N`. -/
theorem witness_NonzeroReservedFieldsAreIllegal :
    IllegalFields 0x0800 ∧ IllegalFields 0xF802 ∧ IllegalFields 0x0020 ∧ IllegalFields 0x07FE := by
  unfold IllegalFields; decide

/-- Each end of each reserved range; and a word that is neither. -/
theorem witness_ReservedOpsAreIllegalAndDecodingIsTotal :
    (ReservedOp 0x06 ∧ ReservedOp 0x07 ∧ ReservedOp 0x0E ∧ ReservedOp 0x0F ∧ ReservedOp 0x12 ∧
      ReservedOp 0x17 ∧ ReservedOp 0x1F) ∧ ¬ (IllegalFields 0x0402 ∨ ReservedOp 0x0402) := by
  unfold IllegalFields ReservedOp; decide

theorem witness_StepRunsTheDecodedCommand :
    (withWord 0x0005).pending = [.command { cmd := 0x0005, operands := Operands.idle }] ∧
    decode 0x0005 = .ok .bwEmit ∧
    exec .bwEmit { withWord 0x0005 with ports := Operands.idle, pending := [] } =
      .next State.reset ∧
    decode 0x0800 = .error (.reservedBits 1) := ⟨rfl, rfl, rfl, rfl⟩

theorem witness_WaitingKeepsTheState : State.reset.pending = [] := rfl

theorem witness_ResetZeroesEveryElement :
    { withA 7 with pending := [.reset], fault := true, bwCur := 3 }.pending = [.reset] := rfl

theorem witness_OperandsLastOneCommand :
    (withWord 0x001E).pending = [.command { cmd := 0x001E, operands := Operands.idle }] ∧
    step (withWord 0x001E) = .next { State.reset with status := 1, fault := true } := ⟨rfl, rfl⟩

/-- The invariant at the ends of its ranges: both cursors 128 over a full buffer. -/
theorem witness_EveryStepKeepsTheInvariant :
    StateInv { withWord 0x0022 with
      brCur := 128, bwCur := 128, bwBuf := Vector.replicate 16 0xFF, status := 5, fault := true } ∧
    step { withWord 0x0022 with
      brCur := 128, bwCur := 128, bwBuf := Vector.replicate 16 0xFF, status := 5, fault := true } =
      .next { State.reset with
        brCur := 128, bwCur := 128, bwBuf := Vector.replicate 16 0xFF, status := 4, fault := true } := by
  refine ⟨⟨by decide, by decide, fun p h1 h2 => ?_, by decide, by decide⟩, rfl⟩
  exact absurd h2 (Nat.not_lt.2 h1)

/-- A failing command, a good one after it, and the reset that clears `FAULT`. -/
theorem witness_FaultIsStickyUntilReset :
    (withWord 0x001E).pending = [.command { cmd := 0x001E, operands := Operands.idle }] ∧
    (withWord 0x001E).fault = false ∧
    Sys2Proof.core.run 1 (withWord 0x001E) =
      .next { State.reset with status := 1, fault := true } ∧
    step { withWord 0x0000 with status := 1, fault := true } =
      .next { State.reset with fault := true } ∧
    step { State.reset with status := 1, fault := true, pending := [.reset] } = .next State.reset :=
  ⟨rfl, rfl, rfl, rfl, rfl⟩

theorem witness_FailedCommandWritesOnlyStatusAndFault :
    perform 0x001E State.reset = .next { State.reset with status := 1, fault := true } ∧
    (1 : BitVec 3) ≠ 0 := ⟨rfl, by decide⟩

theorem witness_CommandsEndWithTheirListedStatuses :
    exec .bc7Enc State.reset = .next { State.reset with status := 1, fault := true } := rfl

/-- Each clause at its bound: width 33, and one bit past the end at width 32 and at width 1. -/
theorem witness_CausesHaveTheirPriority :
    (IllegalFields 0x8502 ∨ ReservedOp 0x8502) ∧
    (decode 0x0422 = .ok (.brRead 33) ∧ decode 0x0424 = .ok (.bwWrite 33) ∧ 32 < 33) ∧
    (decode 0x0402 = .ok (.brRead 32) ∧ 32 ≤ 32 ∧
      128 < { State.reset with brCur := 97 }.brCur.toNat + 32) ∧
    (decode 0x0024 = .ok (.bwWrite 1) ∧ 1 ≤ 32 ∧
      128 < { State.reset with bwCur := 128 }.bwCur.toNat + 1) ∧
    exec .bc7Enc State.reset = .next { State.reset with status := 1, fault := true } := by
  refine ⟨?_, ⟨rfl, rfl, by decide⟩, ⟨rfl, by decide, by decide⟩, ⟨rfl, by decide, by decide⟩, rfl⟩
  exact .inl (by unfold IllegalFields; decide)

theorem witness_NoCommandReadsStatusOrFault :
    perform 0x0800 State.reset = .next { State.reset with status := 2, fault := true } ∧
    perform 0x0000 State.reset = .next State.reset := ⟨rfl, rfl⟩

theorem witness_ElementsAreWrittenOnlyByTheirCommands :
    exec .brLoad (withBlock [1]) = .next { withBlock [1] with brBuf := bytes [1] } := rfl

/-- Two states with the same operands and parameters and other elements apart. -/
theorem witness_CodecResultsDependOnlyOnOperands :
    (withBlock [0x40]).ports = { withBlock [0x40] with brCur := 9, outVal := 5 }.ports ∧
    (withBlock [0x40]).params = { withBlock [0x40] with brCur := 9, outVal := 5 }.params ∧
    exec .bc7Dec (withBlock [0x40]) = .next { withBlock [0x40] with status := 1, fault := true } ∧
    exec .bc7Dec { withBlock [0x40] with brCur := 9, outVal := 5 } =
      .next { withBlock [0x40] with brCur := 9, outVal := 5, status := 1, fault := true } :=
  ⟨rfl, rfl, rfl, rfl⟩

/-- Operands that differ in every bit a command does not read. -/
theorem witness_UnnamedOperandBitsAreIgnored :
    OperandsAgree (.bwWrite 4) { Operands.idle with inA := 5 } { Operands.idle with inA := 0xFFFFFFF5 } ∧
    OperandsAgree .bc1Enc { Operands.idle with inTex := texels [(1, 2, 3, 4)] }
      { Operands.idle with inTex := texels [(1, 2, 3, 250)] } ∧
    OperandsAgree .bc1Dec { Operands.idle with inBlock := bytes [1] }
      { Operands.idle with inBlock := bytes [1, 0, 0, 0, 0, 0, 0, 0, 9, 9, 9, 9, 9, 9, 9, 9] } ∧
    OperandsAgree .bc1Quant { Operands.idle with inB := 1 } { Operands.idle with inB := 0xFF000001 } ∧
    OperandsAgree .bc1Expand { Operands.idle with inA := 1 } { Operands.idle with inA := 0xFFFF0001 } ∧
    OperandsAgree .bc7Mode { Operands.idle with inBlock := bytes [0x40] }
      { Operands.idle with inBlock := bytes [0x40, 0xFF] } ∧
    OperandsAgree .bc7Part { Operands.idle with inA := 3 } { Operands.idle with inA := 0xFFF0C0FF } ∧
    OperandsAgree .bc7Anchor { Operands.idle with inA := 3 } { Operands.idle with inA := 0xFCFFC0FF } ∧
    OperandsAgree .bc7Pexp { Operands.idle with inA := 0 } { Operands.idle with inA := 0xFFFFFEF0 } ∧
    OperandsAgree .bc7Interp { Operands.idle with inA := 0 } { Operands.idle with inA := 0xF8F00000 } ∧
    exec .bc7Pexp (withA 0) = .next (withA 0) := by
  refine ⟨?_, ?_, ?_, ?_, ?_, ?_, ?_, ?_, ?_, ?_, rfl⟩ <;> (unfold OperandsAgree; decide)

theorem witness_ParametersAreFixed :
    step (withWord 0xFFFF) = .next { State.reset with status := 2, fault := true } := rfl

theorem witness_OtherCommandsAreIdempotent :
    (∀ n, Instr.brLoad ≠ .brRead n) ∧ (∀ n, Instr.brLoad ≠ .bwWrite n) ∧
    exec .brLoad (withBlock [1]) = .next { withBlock [1] with brBuf := bytes [1] } :=
  ⟨nofun, nofun, rfl⟩

/-- Each clause at its bound: a field that ends at wire bit 128, width 33, and one bit too far. -/
theorem witness_BrReadGivesTheFieldOrFails :
    ((63 : Nat) < 64) ∧
    (32 ≤ 32 ∧ { State.reset with brCur := 96 }.brCur.toNat + 32 ≤ 128) ∧ ((32 : Nat) < 33) ∧
    (32 ≤ 32 ∧ 128 < { State.reset with brCur := 97 }.brCur.toNat + 32) := by decide

theorem witness_BwWriteAppendsTheFieldOrFails :
    ((63 : Nat) < 64) ∧
    (0 ≤ 32 ∧ { State.reset with bwCur := 128 }.bwCur.toNat + 0 ≤ 128) ∧ ((32 : Nat) < 33) ∧
    (1 ≤ 32 ∧ 128 < { State.reset with bwCur := 128 }.bwCur.toNat + 1) := by decide

/-- A partly written buffer: wire bit 8 is the first of the tail, 127 the last. -/
theorem witness_BwEmitCopiesTheBlock :
    StateInv { State.reset with bwBuf := bytes [0x2D], bwCur := 8 } ∧
    { State.reset with bwBuf := bytes [0x2D], bwCur := 8 }.bwCur.toNat ≤ 8 ∧ 127 < 128 := by
  refine ⟨⟨by decide, by decide, fun p h1 h2 => ?_, by decide, by decide⟩, by decide, by decide⟩
  have h : ∀ p < 128, 8 ≤ p → bitAt (bytes [0x2D]) p = false := by decide
  exact h p h2 h1

/-- Fields of widths 32, 0, 32, 32 and 32 fill the block, each at its greatest value. -/
theorem witness_WrittenFieldsReadBack :
    (∀ f ∈ [(32, 0xFFFFFFFF), (0, 0), (32, 1), (32, 0xFFFFFFFF), (32, 2)],
      f.1 ≤ 32 ∧ (f.2 : Scalar).toNat < 2 ^ f.1) ∧
    ([(32, 0xFFFFFFFF), (0, 0), (32, 1), (32, 0xFFFFFFFF), (32, 2)].map
      (Prod.fst : Nat × Scalar → Nat)).sum ≤ 128 ∧
    4 < [(32, 0xFFFFFFFF), (0, 0), (32, 1), (32, 0xFFFFFFFF), ((32 : Nat), (2 : Scalar))].length := by
  decide

/-- Both variants, and a colour on which they agree at the greatest green and blue. -/
theorem witness_Bc1QuantPacksTheQuotients :
    (withB 0xFFFFFF).params.pack565 = .orOverlap ∧
    { withB 0xFFFFFF with params := ⟨.mask, .perTerm⟩ }.params.pack565 = .mask ∧
    (withB 0x7F7FFF).ports.inB.toNat / 2 ^ 8 % 2 ^ 8 / 2 < 64 ∧
    (withB 0x7F7FFF).ports.inB.toNat / 2 ^ 16 % 2 ^ 8 / 4 < 32 := by decide

/-- The row byte 1B holds the indices 0, 1, 2, 3. -/
theorem witness_Bc1DecLooksUpTheIndices :
    rowPair (bytes [0, 0, 0, 0, 0x1B])[4] 0 = 0 ∧ rowPair (bytes [0, 0, 0, 0, 0x1B])[4] 1 = 1 ∧
    rowPair (bytes [0, 0, 0, 0, 0x1B])[4] 2 = 2 ∧ rowPair (bytes [0, 0, 0, 0, 0x1B])[4] 3 = 3 := by
  decide

theorem witness_DecodedChannelsStayBelowTheirBounds :
    Instr.bc2Dec ∈ [Instr.bc1Dec, .bc2Dec] ∧
    exec .bc2Dec State.reset = .next State.reset := ⟨by decide, rfl⟩

theorem witness_Bc2DecExpandsAlphaOverTheBc1Colours :
    ∀ j : Fin 8, (bytes [0xFF, 0xFF])[j.val] =
      (withBlock [0xF0, 0, 0, 0, 0, 0, 0, 0, 0xFF, 0xFF]).ports.inBlock[8 + j.val] := by decide

theorem witness_AlphaRoundTripTruncatesToSixteen :
    ∃ t u : State, exec .bc2Enc (withTexels literalTexels) = .next t ∧
      exec .bc2Dec { t with ports := { t.ports with inBlock := t.outBlock } } = .next u :=
  ⟨_, _, rfl, rfl⟩

/-- The first and last byte of Mode0, of Mode1 and of Mode7, and the Invalid byte. -/
theorem witness_Bc7ModeIsTheFirstOneBit :
    (0x80 / 2 ^ 0 ≤ (withBlock [0x80]).ports.inBlock[0].toNat ∧
      (withBlock [0xFF]).ports.inBlock[0].toNat < 0x100 / 2 ^ 0) ∧
    (0x80 / 2 ^ 1 ≤ (withBlock [0x40]).ports.inBlock[0].toNat ∧
      (withBlock [0x7F]).ports.inBlock[0].toNat < 0x100 / 2 ^ 1) ∧
    (7 < 8 ∧ 0x80 / 2 ^ 7 ≤ (withBlock [0x01]).ports.inBlock[0].toNat ∧
      (withBlock [0x01]).ports.inBlock[0].toNat < 0x100 / 2 ^ 7) ∧
    (withBlock [0x00, 0xFF]).ports.inBlock[0].toNat = 0 := by decide

theorem witness_Bc7InvalidBlockFallsBackToZero :
    (withBlock [0x00, 0xFF]).ports.inBlock[0] = 0 := by decide

theorem witness_Bc7ModesOneToSevenAreUnsupported :
    (0 < (withBlock [0x01]).ports.inBlock[0].toNat ∧
      (withBlock [0x01]).ports.inBlock[0].toNat < 0x80) ∧
    (0 < (withBlock [0x7F]).ports.inBlock[0].toNat ∧
      (withBlock [0x7F]).ports.inBlock[0].toNat < 0x80) := by decide

theorem witness_Bc7DecFollowsTheMode0WireMap :
    0x80 ≤ (withBlock [0x80]).ports.inBlock[0].toNat ∧
    0x80 ≤ (withBlock [0xFF]).ports.inBlock[0].toNat := by decide

theorem witness_Bc7PartReadsThePartitionRow :
    (withA 0x00).ports.inA.toNat % 2 ^ 2 = 0 ∧ (withA 0x0F3F01).ports.inA.toNat % 2 ^ 2 = 1 ∧
    (withA 0x0F3F02).ports.inA.toNat % 2 ^ 2 = 2 ∧ (withA 0x0F3F03).ports.inA.toNat % 2 ^ 2 = 3 := by
  decide

theorem witness_EveryPartitionUsesEverySubset : (3 = 2 ∨ 3 = 3) ∧ 63 < 64 := by decide

/-- `ns` = 0 and `s` = `ns`, then every pair `s` below `ns`. -/
theorem witness_Bc7AnchorReadsTheAnchorRoms :
    (withA 0x00).ports.inA.toNat % 2 ^ 2 ≤ (withA 0x00).ports.inA.toNat / 2 ^ 24 % 2 ^ 2 ∧
    (withA 0x02000002).ports.inA.toNat % 2 ^ 2 ≤ (withA 0x02000002).ports.inA.toNat / 2 ^ 24 % 2 ^ 2 ∧
    (0 < (withA 0x01).ports.inA.toNat % 2 ^ 2 ∧ (withA 0x01).ports.inA.toNat / 2 ^ 24 % 2 ^ 2 = 0) ∧
    ((withA 0x01003F02).ports.inA.toNat % 2 ^ 2 = 2 ∧
      (withA 0x01003F02).ports.inA.toNat / 2 ^ 24 % 2 ^ 2 = 1) ∧
    ((withA 0x01003F03).ports.inA.toNat % 2 ^ 2 = 3 ∧
      (withA 0x01003F03).ports.inA.toNat / 2 ^ 24 % 2 ^ 2 = 1) ∧
    ((withA 0x02003F03).ports.inA.toNat % 2 ^ 2 = 3 ∧
      (withA 0x02003F03).ports.inA.toNat / 2 ^ 24 % 2 ^ 2 = 2) := by decide

theorem witness_AnchorsLieInTheirOwnSubsets :
    (1 ≤ 3 ∧ 3 ≤ 3 ∧ 63 < 64 ∧ 2 < 3) ∧
    (withA 0x02003F03).ports.inA = BitVec.ofNat 32 (3 + 2 ^ 8 * 63 + 2 ^ 24 * 2) ∧
    exec .bc7Anchor (withA 0x02003F03) = .next { withA 0x02003F03 with outVal := 8 } :=
  ⟨by decide, by decide, rfl⟩

/-- The greatest index of each width; then each way to be out of range. -/
theorem witness_Bc7InterpWeightsTheEndpoints :
    ((withA 0x02030000).ports.inA.toNat / 2 ^ 24 % 2 ^ 3 = 2 ∧
      (withA 0x02030000).ports.inA.toNat / 2 ^ 16 % 2 ^ 4 < 4) ∧
    ((withA 0x03070000).ports.inA.toNat / 2 ^ 24 % 2 ^ 3 = 3 ∧
      (withA 0x03070000).ports.inA.toNat / 2 ^ 16 % 2 ^ 4 < 8) ∧
    (withA 0x040F0000).ports.inA.toNat / 2 ^ 24 % 2 ^ 3 = 4 ∧
    (withA 0x01000000).ports.inA.toNat / 2 ^ 24 % 2 ^ 3 < 2 ∧
    4 < (withA 0x05000000).ports.inA.toNat / 2 ^ 24 % 2 ^ 3 ∧
    ((withA 0x02040000).ports.inA.toNat / 2 ^ 24 % 2 ^ 3 = 2 ∧
      4 ≤ (withA 0x02040000).ports.inA.toNat / 2 ^ 16 % 2 ^ 4) ∧
    ((withA 0x03080000).ports.inA.toNat / 2 ^ 24 % 2 ^ 3 = 3 ∧
      8 ≤ (withA 0x03080000).ports.inA.toNat / 2 ^ 16 % 2 ^ 4) := by decide

theorem witness_InterpolationStaysBetweenTheEndpoints :
    exec .bc7Interp (withA 0x0203FF00) = .next { withA 0x0203FF00 with outVal := 255 } ∧
    (withA 0x0203FF00).ports.inA.toNat / 2 ^ 16 % 2 ^ 4 =
      2 ^ ((withA 0x0203FF00).ports.inA.toNat / 2 ^ 24 % 2 ^ 3) - 1 := ⟨rfl, by decide⟩

end Sys2Proof.Tests
end

/-! The state's rules (10_state.md): what each command and step answers, the invariant, and what results depend on. -/

namespace Sys2Proof.Safety

open Sys2Proof Sys2Proof.Machine

/-! ### The invariant under the updates every command shares -/

theorem StateInv.reset : StateInv State.reset where
  brCur_le := by decide
  bwCur_le := by decide
  tail_zero p _ _ := bitAt_zeroBlock p
  status_le := by decide
  failed_fault h := absurd rfl h

/-- The invariant speaks of the two cursors, `BW_BUF`, `STATUS` and `FAULT` only. -/
theorem StateInv.congr {s t : State} (hs : StateInv s) (hbr : t.brCur = s.brCur)
    (hbuf : t.bwBuf = s.bwBuf) (hbw : t.bwCur = s.bwCur) (hst : t.status = s.status)
    (hf : t.fault = s.fault) : StateInv t where
  brCur_le := hbr ▸ hs.brCur_le
  bwCur_le := hbw ▸ hs.bwCur_le
  tail_zero := by rw [hbuf, hbw]; exact hs.tail_zero
  status_le := hst ▸ hs.status_le
  failed_fault := by rw [hst, hf]; exact hs.failed_fault

theorem StateInv.present {s : State} (hs : StateInv s) (c : Transaction) (rest : List HostEvent) :
    StateInv (s.present c rest) := hs.congr rfl rfl rfl rfl rfl

theorem StateInv.release {s : State} (hs : StateInv s) : StateInv s.release :=
  hs.congr rfl rfl rfl rfl rfl

theorem StateInv.applyReset (s : State) (rest : List HostEvent) : StateInv (s.applyReset rest) :=
  StateInv.reset.congr rfl rfl rfl rfl rfl

/-- A failing command keeps the invariant: its code is legal, and `FAULT` is set beside it (R240, R243). -/
theorem StateInv.fail {s : State} (hs : StateInv s) (st : Status) :
    StateInv { s with status := st.code, fault := true } where
  brCur_le := hs.brCur_le
  bwCur_le := hs.bwCur_le
  tail_zero := hs.tail_zero
  status_le := code_le_five st
  failed_fault _ := rfl

end Sys2Proof.Safety

namespace Sys2Proof.Machine

open Sys2Proof Sys2Proof.Safety

/-! ### What the bit-stream commands answer, case by case (R106 to R109) -/

theorem exec_brLoad (s : State) :
    exec .brLoad s = .next { s with brBuf := s.ports.inBlock, brCur := 0, status := 0 } :=
  finish_eq _

theorem exec_brRead_of_wide (n : Nat) (s : State) (hn : 32 < n) :
    exec (.brRead n) s = .next { s with status := 3, fault := true } := by
  simp [exec, execBrRead, Config.brMaxN, hn]

theorem exec_brRead_of_overrun (n : Nat) (s : State) (hn : n ≤ 32) (hc : 128 < s.brCur.toNat + n) :
    exec (.brRead n) s = .next { s with status := 4, fault := true } := by
  simp [exec, execBrRead, Config.brMaxN, Config.brBits, Nat.not_lt.2 hn, hc]

theorem exec_brRead_of_fits (n : Nat) (s : State) (hn : n ≤ 32) (hc : s.brCur.toNat + n ≤ 128) :
    exec (.brRead n) s = .next { s with
      outVal := BitVec.ofNat 32 (brValue s.brBuf s.brCur.toNat n)
      brCur := BitVec.ofNat 8 (s.brCur.toNat + n)
      status := 0 } := by
  simp [exec, execBrRead, Config.brMaxN, Config.brBits, Nat.not_lt.2 hn, Nat.not_lt.2 hc, brRead,
    finish_eq]

theorem exec_bwClear (s : State) :
    exec .bwClear s = .next { s with bwBuf := zeroBlock, bwCur := 0, status := 0 } :=
  finish_eq _

theorem exec_bwWrite_of_wide (n : Nat) (s : State) (hn : 32 < n) :
    exec (.bwWrite n) s = .next { s with status := 3, fault := true } := by
  simp [exec, execBwWrite, Config.brMaxN, hn]

theorem exec_bwWrite_of_overflow (n : Nat) (s : State) (hn : n ≤ 32) (hc : 128 < s.bwCur.toNat + n) :
    exec (.bwWrite n) s = .next { s with status := 5, fault := true } := by
  simp [exec, execBwWrite, Config.brMaxN, Config.bwBits, Nat.not_lt.2 hn, hc]

theorem exec_bwWrite_of_fits (n : Nat) (s : State) (hn : n ≤ 32) (hc : s.bwCur.toNat + n ≤ 128) :
    exec (.bwWrite n) s = .next { s with
      bwBuf := (bwWrite s.bwBuf s.bwCur.toNat n s.ports.inA.toNat).1
      bwCur := BitVec.ofNat 8 (s.bwCur.toNat + n)
      status := 0 } := by
  simp [exec, execBwWrite, Config.brMaxN, Config.bwBits, Nat.not_lt.2 hn, Nat.not_lt.2 hc, bwWrite,
    finish_eq]

/-! ### What the codec commands answer (R133, R134, R166, R167, R205) -/

theorem exec_bc1Enc (s : State) :
    exec .bc1Enc s = .next { s with
      outBlock := joinHalves (bc1Encode s.params (rgbGrid s.ports.inTex)) zeroBlock8
      status := 0 } :=
  finish_eq _

theorem exec_bc1Dec (s : State) :
    exec .bc1Dec s = .next { s with
      outTex := zeroAlphaGrid (bc1Decode s.params (lowHalf s.ports.inBlock))
      status := 0 } :=
  finish_eq _

theorem exec_bc2Enc (s : State) :
    exec .bc2Enc s = .next { s with outBlock := bc2Encode s.params s.ports.inTex, status := 0 } :=
  finish_eq _

theorem exec_bc2Dec (s : State) :
    exec .bc2Dec s = .next { s with outTex := bc2Decode s.params s.ports.inBlock, status := 0 } :=
  finish_eq _

theorem exec_bc7Dec_of_unsupported (s : State) (m : Nat)
    (hd : bc7Decode s.ports.inBlock = .unsupported m) :
    exec .bc7Dec s = .next { s with status := 1, fault := true } := by
  simp [exec, execBc7Dec, hd]

theorem exec_bc7Dec_of_decoded (s : State) (m : Nat) (tex : TexelGrid) (p : Nat)
    (hd : bc7Decode s.ports.inBlock = .decoded m tex p) :
    exec .bc7Dec s = .next { s with
      outTex := tex
      outVal := BitVec.ofNat 32 (m ||| (subsetsOf m <<< 4) ||| (p <<< 8))
      status := 0 } := by
  simp [exec, execBc7Dec, hd, finish_eq]

/-! ### Inversion: what a performed word and a step can have done -/

/-- A performed word is its command, or it is illegal and ends with ILLEGAL_CMD (R60, R63, R65). -/
theorem perform_next_cases (w : CmdWord) (s t : State) (h : perform w s = .next t) :
    (∃ i, decode w = .ok i ∧ exec i s = .next t) ∨
    (∃ r, decode w = .error r ∧ t = { s with status := 2, fault := true }) := by
  cases hd : decode w with
  | ok i => exact .inl ⟨i, rfl, perform_of_ok w s i hd ▸ h⟩
  | error r =>
    rw [perform_of_error w s r hd] at h
    exact .inr ⟨r, rfl, (Host.Outcome.next.inj h).symm⟩

theorem releasePorts_eq_next (r : Result) (t : State) (h : releasePorts r = .next t) :
    ∃ u, r = .next u ∧ t = u.release := by
  cases r with
  | next u => exact ⟨u, rfl, (Host.Outcome.next.inj h).symm⟩
  | fault f => cases h
  | refused r => cases h

/-- A step waits, resets, or performs the transaction presented next and then lets its operands go (R25, R60, R260). -/
theorem step_next_cases (s t : State) (h : step s = .next t) :
    (s.pending = [] ∧ t = s) ∨
    (∃ rest, s.pending = .reset :: rest ∧ t = s.applyReset rest) ∨
    (∃ c rest u, s.pending = .command c :: rest ∧
      perform c.cmd (s.present c rest) = .next u ∧ t = u.release) := by
  unfold step at h
  split at h
  · next hp => exact .inl ⟨hp, (Host.Outcome.next.inj h).symm⟩
  · next rest hp => exact .inr (.inl ⟨rest, hp, (Host.Outcome.next.inj h).symm⟩)
  · next c rest hp =>
    obtain ⟨u, hu, ht⟩ := releasePorts_eq_next _ t h
    exact .inr (.inr ⟨c, rest, u, hp, hu, ht⟩)

/-! ### The model's own fields: parameters, ports and pending sequence -/

theorem exec_keeps_model_fields (i : Instr) (s t : State) (h : exec i s = .next t) :
    t.params = s.params ∧ t.ports = s.ports ∧ t.pending = s.pending := by
  rcases exec_next_cases i s t h with ⟨-, u, rfl, hf⟩ | ⟨st, -, rfl⟩
  · exact ⟨hf.params_eq, hf.ports_eq, hf.pending_eq⟩
  · exact ⟨rfl, rfl, rfl⟩

theorem perform_keeps_model_fields (w : CmdWord) (s t : State) (h : perform w s = .next t) :
    t.params = s.params ∧ t.ports = s.ports ∧ t.pending = s.pending := by
  rcases perform_next_cases w s t h with ⟨i, -, hi⟩ | ⟨r, -, rfl⟩
  · exact exec_keeps_model_fields i s t hi
  · exact ⟨rfl, rfl, rfl⟩

/-! ### Every step keeps the invariant -/

theorem exec_keeps_brCur (i : Instr) (s t : State) (h : exec i s = .next t)
    (hl : i ≠ .brLoad) (hr : ∀ n, i ≠ .brRead n) : t.brCur = s.brCur := by
  rcases exec_next_cases i s t h with ⟨-, u, rfl, hf⟩ | ⟨st, -, rfl⟩
  · exact hf.brCur_eq hl hr
  · rfl

/-- A command keeps `BR_CUR` within 0..128: `br.load` rewinds it, and `br.read` moves it only where its field fits (R24, R107). -/
theorem exec_brCur_le (i : Instr) (s t : State) (h : exec i s = .next t)
    (hs : s.brCur.toNat ≤ 128) : t.brCur.toNat ≤ 128 := by
  cases i with
  | brLoad =>
    rw [exec_brLoad] at h
    cases h; exact Nat.zero_le 128
  | brRead n =>
    rcases Nat.lt_or_ge 32 n with hn | hn
    · rw [exec_brRead_of_wide n s hn] at h
      cases h; exact hs
    rcases Nat.lt_or_ge 128 (s.brCur.toNat + n) with hc | hc
    · rw [exec_brRead_of_overrun n s hn hc] at h
      cases h; exact hs
    · rw [exec_brRead_of_fits n s hn hc] at h
      cases h; exact (Nat.mod_le _ _).trans hc
  | _ => exact exec_keeps_brCur _ s t h nofun nofun ▸ hs

/-- What R24 says of the BitWriter: its cursor is within 0..128 and the wire bits from it on are zero. -/
def WriterInv (B : Block) (cur : Nat) : Prop :=
  cur ≤ 128 ∧ ∀ p, cur ≤ p → p < 128 → bitAt B p = false

theorem writerInv_zeroBlock : WriterInv zeroBlock 0 :=
  ⟨Nat.zero_le 128, fun p _ _ => bitAt_zeroBlock p⟩

/-- `BWWrite` leaves the wire bits past its field alone, so the tail stays zero (R102). -/
theorem writerInv_bwWrite (B : Block) (cur n v : Nat) (hB : WriterInv B cur) (hn : cur + n ≤ 128) :
    WriterInv (bwWrite B cur n v).1 (cur + n) := by
  refine ⟨hn, fun p hp hp128 => ?_⟩
  rw [bitAt_bwWrite B cur n v p hn hp128, if_neg (by omega)]
  exact hB.2 p (by omega) hp128

theorem exec_keeps_writer (i : Instr) (s t : State) (h : exec i s = .next t)
    (hc : i ≠ .bwClear) (hw : ∀ n, i ≠ .bwWrite n) : t.bwBuf = s.bwBuf ∧ t.bwCur = s.bwCur := by
  rcases exec_next_cases i s t h with ⟨-, u, rfl, hf⟩ | ⟨st, -, rfl⟩
  · exact ⟨hf.bwBuf_eq hc hw, hf.bwCur_eq hc hw⟩
  · exact ⟨rfl, rfl⟩

/-- A command keeps the BitWriter's invariant: `bw.clear` zeroes the block, and `bw.write` writes only where its field fits (R24, R109). -/
theorem exec_keeps_writerInv (i : Instr) (s t : State) (h : exec i s = .next t)
    (hs : WriterInv s.bwBuf s.bwCur.toNat) : WriterInv t.bwBuf t.bwCur.toNat := by
  cases i with
  | bwClear =>
    rw [exec_bwClear] at h
    cases h; exact writerInv_zeroBlock
  | bwWrite n =>
    rcases Nat.lt_or_ge 32 n with hn | hn
    · rw [exec_bwWrite_of_wide n s hn] at h
      cases h; exact hs
    rcases Nat.lt_or_ge 128 (s.bwCur.toNat + n) with hc | hc
    · rw [exec_bwWrite_of_overflow n s hn hc] at h
      cases h; exact hs
    · rw [exec_bwWrite_of_fits n s hn hc] at h
      cases h
      have hcur : (BitVec.ofNat 8 (s.bwCur.toNat + n)).toNat = s.bwCur.toNat + n :=
        Nat.mod_eq_of_lt (by omega)
      rw [hcur]
      exact writerInv_bwWrite _ _ n _ hs hc
  | _ =>
    obtain ⟨hbuf, hcur⟩ := exec_keeps_writer _ s t h nofun nofun
    rw [hbuf, hcur]; exact hs

theorem exec_keeps_inv (i : Instr) (s t : State) (h : exec i s = .next t) (hs : StateInv s) :
    StateInv t := by
  rcases exec_next_cases i s t h with ⟨-, u, ht, -⟩ | ⟨st, -, rfl⟩
  · obtain ⟨hle, htail⟩ := exec_keeps_writerInv i s t h ⟨hs.bwCur_le, hs.tail_zero⟩
    have hst : t.status = 0 := by rw [ht]
    exact ⟨exec_brCur_le i s t h hs.brCur_le, hle, htail, by rw [hst]; decide,
      fun hne => absurd hst hne⟩
  · exact hs.fail st

theorem perform_keeps_inv (w : CmdWord) (s t : State) (h : perform w s = .next t)
    (hs : StateInv s) : StateInv t := by
  rcases perform_next_cases w s t h with ⟨i, -, hi⟩ | ⟨r, -, rfl⟩
  · exact exec_keeps_inv i s t hi hs
  · exact hs.fail .illegalCmd

/-- Settles O12: every element is zero after reset. -/
theorem resetStateIsInvariant : Obligations.ResetStateIsInvariant := StateInv.reset

/-- Settles O13, by the three kinds of step: waiting keeps the state, reset establishes the invariant, and a performed word keeps it (`perform_keeps_inv`). -/
theorem everyStepKeepsTheInvariant : Obligations.EveryStepKeepsTheInvariant := by
  intro s t hs h
  rcases step_next_cases s t h with ⟨-, rfl⟩ | ⟨rest, -, rfl⟩ | ⟨c, rest, u, -, hu, rfl⟩
  · exact hs
  · exact StateInv.applyReset s rest
  · exact (perform_keeps_inv c.cmd _ u hu (hs.present c rest)).release

/-! ### Operands and parameters -/

/-- Settles O11: presenting a transaction overwrites the ports, and its operands are let go after it. -/
theorem operandsLastOneCommand : Obligations.OperandsLastOneCommand := by
  intro s c rest o hp
  refine ⟨?_, fun t h => ?_⟩
  · simp only [step, hp]
    rfl
  · rcases step_next_cases s t h with ⟨hp', -⟩ | ⟨rest', hp', -⟩ | ⟨c', rest', u, hp', hu, rfl⟩
    · rw [hp] at hp'; cases hp'
    · rw [hp] at hp'; cases hp'
    · rw [hp] at hp'; cases hp'
      obtain ⟨-, -, hpending⟩ := perform_keeps_model_fields c.cmd _ u hu
      exact ⟨rfl, hpending⟩

/-- Settles O22: a command, an illegal word, reset and waiting all leave the parameters alone. -/
theorem parametersAreFixed : Obligations.ParametersAreFixed := by
  intro s t h
  rcases step_next_cases s t h with ⟨-, rfl⟩ | ⟨rest, -, rfl⟩ | ⟨c, rest, u, -, hu, rfl⟩
  · rfl
  · rfl
  · obtain ⟨hparams, -, -⟩ := perform_keeps_model_fields c.cmd _ u hu
    exact hparams

/-! ### `STATUS` and `FAULT` are written and never read (R27) -/

/-- The state with other values of the two flags. -/
def State.setFlags (s : State) (st : BitVec 3) (f : Bool) : State := { s with status := st, fault := f }

/-- The answer `r'` is `r` but for `FAULT`, which is the old value `f` or the command's own failure. -/
def SameButFault (f : Bool) (r r' : Result) : Prop :=
  ∀ t, r = .next t → r' = .next { t with fault := f || decide (t.status ≠ 0) }

theorem sameButFault_finish (st : BitVec 3) (f : Bool) (u : State) :
    SameButFault f (finish u) (finish (u.setFlags st f)) := by
  intro t h
  rw [finish_eq] at h ⊢
  cases h
  simp [State.setFlags]

theorem sameButFault_raise (st : BitVec 3) (f : Bool) (s : State) (e : Status)
    (he : e.isFailure = true) : SameButFault f (raise e s) (raise e (s.setFlags st f)) := by
  intro t h
  rw [raise_eq e _ he] at h ⊢
  cases h
  have hne : decide (e.code ≠ 0) = true := decide_eq_true (isFailure_code_ne_zero e he)
  simp only [State.setFlags, hne, Bool.or_true]

/-- A check that both states answer alike is no way for the flags to matter. -/
theorem sameButFault_ite (f : Bool) (c : Prop) [Decidable c] {a a' b b' : Result}
    (ha : SameButFault f a a') (hb : SameButFault f b b') :
    SameButFault f (if c then a else b) (if c then a' else b') := by
  split
  · exact ha
  · exact hb

/-- No command's checks or results read the flags. -/
theorem exec_sameButFault (i : Instr) (s : State) (st : BitVec 3) (f : Bool) :
    SameButFault f (exec i s) (exec i (s.setFlags st f)) := by
  have hfinish := sameButFault_finish st f
  have hraise := sameButFault_raise st f s
  cases i with
  | brRead n =>
    exact sameButFault_ite f _ (hraise _ rfl) (sameButFault_ite f _ (hraise _ rfl) (hfinish _))
  | bwWrite n =>
    exact sameButFault_ite f _ (hraise _ rfl) (sameButFault_ite f _ (hraise _ rfl) (hfinish _))
  | bc7Part => exact sameButFault_ite f _ (hraise _ rfl) (hfinish _)
  | bc7Anchor => exact sameButFault_ite f _ (hraise _ rfl) (hfinish _)
  | bc7Interp => exact sameButFault_ite f _ (hraise _ rfl) (hfinish _)
  | bc7Dec =>
    have hports : (s.setFlags st f).ports = s.ports := rfl
    simp only [exec, execBc7Dec, hports]
    cases bc7Decode s.ports.inBlock with
    | unsupported m => exact hraise _ rfl
    | decoded m tex p => exact hfinish _
  | bc7Enc => exact hraise _ rfl
  | _ => exact hfinish _

/-- Settles O18: a legal word is a command (`exec_sameButFault`), and an illegal one raises ILLEGAL_CMD whatever the flags hold. -/
theorem noCommandReadsStatusOrFault : Obligations.NoCommandReadsStatusOrFault := by
  intro w s t st f
  change perform w s = .next t → perform w (s.setFlags st f) = _
  cases hd : decode w with
  | ok i =>
    rw [perform_of_ok w _ i hd, perform_of_ok w _ i hd]
    exact exec_sameButFault i s st f t
  | error r =>
    rw [perform_of_error w _ r hd, perform_of_error w _ r hd,
      ← raise_illegalCmd, ← raise_illegalCmd]
    exact sameButFault_raise st f s .illegalCmd rfl t

/-! ### Frames and results -/

/-- Settles O19: the frame of each command (`exec_next_cases`); a finishing command has status OK, a raising one has not. -/
theorem elementsAreWrittenOnlyByTheirCommands :
    Obligations.ElementsAreWrittenOnlyByTheirCommands := by
  intro i s t h
  rcases exec_next_cases i s t h with ⟨-, u, rfl, hf⟩ | ⟨st, hr, rfl⟩
  · exact ⟨hf.brBuf_eq, hf.brCur_eq, fun hc hw => ⟨hf.bwBuf_eq hc hw, hf.bwCur_eq hc hw⟩,
      hf.outBlock_eq, hf.outTex_eq, hf.outVal_eq, fun _ => hf.fault_eq, fun hne => absurd rfl hne,
      hf.params_eq, hf.ports_eq, hf.pending_eq⟩
  · have hne : st.code ≠ 0 := isFailure_code_ne_zero st (isFailure_of_raises i st hr)
    exact ⟨fun _ => rfl, fun _ _ => rfl, fun _ _ => ⟨rfl, rfl⟩, fun _ => rfl, fun _ => rfl,
      fun _ _ => rfl, fun h0 => absurd h0 hne, fun _ => rfl, rfl, rfl, rfl⟩

/-- `bc7.dec` reads its block and nothing else: equal ports give equal status, and equal results where it is OK (R31, R205). -/
theorem exec_bc7Dec_congr (s s' t t' : State) (hports : s.ports = s'.ports)
    (h : exec .bc7Dec s = .next t) (h' : exec .bc7Dec s' = .next t') :
    t.status = t'.status ∧ (t.status = 0 → t.outTex = t'.outTex ∧ t.outVal = t'.outVal) := by
  cases hd : bc7Decode s.ports.inBlock with
  | unsupported m =>
    rw [exec_bc7Dec_of_unsupported s m hd] at h
    rw [exec_bc7Dec_of_unsupported s' m (hports ▸ hd)] at h'
    cases h; cases h'
    exact ⟨rfl, nofun⟩
  | decoded m tex p =>
    rw [exec_bc7Dec_of_decoded s m tex p hd] at h
    rw [exec_bc7Dec_of_decoded s' m tex p (hports ▸ hd)] at h'
    cases h; cases h'
    exact ⟨rfl, fun _ => ⟨rfl, rfl⟩⟩

/-- Settles O20: each codec command's result is a function of its ports and the parameters. -/
theorem codecResultsDependOnlyOnOperands : Obligations.CodecResultsDependOnlyOnOperands := by
  intro i s s' t t' hports hparams h h'
  refine ⟨fun hi => ?_, fun hi => ?_, fun hi => ?_⟩
  · rcases List.mem_pair.1 hi with rfl | rfl
    all_goals
      simp only [exec_bc1Enc, exec_bc2Enc, Host.Outcome.next.injEq] at h h'
      subst h h'
      exact ⟨rfl, by rw [hports, hparams]⟩
  · rcases List.mem_pair.1 hi with rfl | rfl
    all_goals
      simp only [exec_bc1Dec, exec_bc2Dec, Host.Outcome.next.injEq] at h h'
      subst h h'
      exact ⟨rfl, by rw [hports, hparams]⟩
  · subst hi
    exact exec_bc7Dec_congr s s' t t' hports h h'

end Sys2Proof.Machine

/-! The port rules (20_memory.md): which operand bits a command reads, and which commands may be issued twice. -/

namespace Sys2Proof.Machine

open Sys2Proof Sys2Proof.Safety

/-! ### Ports that agree give equal fields (R51, R52, R53, R66) -/

theorem rgbGrid_congr {x y : TexelGrid} (h : ∀ k : Fin 16, x[k].rgb = y[k].rgb) :
    rgbGrid x = rgbGrid y := by
  simp only [rgbGrid, h]

theorem lowHalf_congr {B C : Block} (h : ∀ k : Fin 16, k.val < 8 → B[k] = C[k]) :
    lowHalf B = lowHalf C := by
  refine Vector.ext fun k hk => ?_
  rw [getElem_lowHalf B k hk, getElem_lowHalf C k hk]
  exact h ⟨k, by omega⟩ hk

/-- A colour is bits 23..0 of its port (R53). -/
theorem colourOf_congr {x y : Scalar} (h : x.toNat % 2 ^ 24 = y.toNat % 2 ^ 24) :
    colourOf x = colourOf y := by
  simp only [colourOf_eq, Rgb8.mk.injEq]
  refine ⟨BitVec.eq_of_toNat_eq ?_, BitVec.eq_of_toNat_eq ?_, BitVec.eq_of_toNat_eq ?_⟩
  all_goals simp only [BitVec.toNat_ofNat]; omega

theorem endpoint0Field_congr {a a' : Scalar} (h : a.toNat % 2 ^ 16 = a'.toNat % 2 ^ 16) :
    endpoint0Field a = endpoint0Field a' := by
  rw [endpoint0Field_eq, endpoint0Field_eq, h]

theorem modeOf_congr {B C : Block} (h : B[0] = C[0]) : modeOf B = modeOf C := by
  rw [modeOf_eq, modeOf_eq, h]

theorem bc7Part_fields_congr {o o' : Operands} (h : OperandsAgree .bc7Part o o') :
    subsetCountField o.inA = subsetCountField o'.inA ∧
      partitionField o.inA = partitionField o'.inA ∧ positionField o.inA = positionField o'.inA := by
  rwa [subsetCountField_eq, subsetCountField_eq, partitionField_eq, partitionField_eq,
    positionField_eq, positionField_eq]

theorem bc7Anchor_fields_congr {o o' : Operands} (h : OperandsAgree .bc7Anchor o o') :
    subsetCountField o.inA = subsetCountField o'.inA ∧
      partitionField o.inA = partitionField o'.inA ∧ subsetField o.inA = subsetField o'.inA := by
  rwa [subsetCountField_eq, subsetCountField_eq, partitionField_eq, partitionField_eq,
    subsetField_eq, subsetField_eq]

theorem bc7Pexp_fields_congr {o o' : Operands} (h : OperandsAgree .bc7Pexp o o') :
    componentField o.inA = componentField o'.inA ∧ pBitField o.inA = pBitField o'.inA := by
  rwa [componentField_eq, componentField_eq, pBitField_eq, pBitField_eq]

/-- Bits 19..0 of `IN_A` hold both end points and the index of `bc7.interp`, bits 26..24 the width. -/
theorem bc7Interp_fields_congr {o o' : Operands} (h : OperandsAgree .bc7Interp o o') :
    startField o.inA = startField o'.inA ∧ endField o.inA = endField o'.inA ∧
      indexField o.inA = indexField o'.inA ∧ indexWidthField o.inA = indexWidthField o'.inA := by
  obtain ⟨hlow, hwidth⟩ := h
  refine ⟨BitVec.eq_of_toNat_eq ?_, BitVec.eq_of_toNat_eq ?_, ?_, ?_⟩
  · rw [startField_toNat, startField_toNat]; omega
  · rw [endField_toNat, endField_toNat]; omega
  · rw [indexField_eq, indexField_eq]; omega
  · rwa [indexWidthField_eq, indexWidthField_eq]

/-! ### A command reads no more of its ports than R66 names -/

/-- A result with other operands on the ports. -/
def withPorts (o : Operands) : Result → Result
  | .next t => .next { t with ports := o }
  | .fault f => .fault f
  | .refused r => .refused r

/-- Agreeing operands give the same answer, the ports aside: each command's checks and results read its ports only through the fields R66 names. -/
theorem exec_congr_of_operandsAgree (i : Instr) (s : State) (o o' : Operands)
    (h : OperandsAgree i o o') :
    exec i { s with ports := o' } = withPorts o' (exec i { s with ports := o }) := by
  cases i with
  | nop => rfl
  | bwClear => rfl
  | bwEmit => rfl
  | bc7Enc => rfl
  | brRead n =>
    simp only [exec, execBrRead]
    split
    · rfl
    · split <;> rfl
  | bwWrite n =>
    simp only [exec, execBwWrite]
    split
    · rfl
    · split
      · rfl
      · next hc =>
        rw [bwWrite_congr _ _ n _ _ (Nat.not_lt.1 hc) h]
        rfl
  | brLoad =>
    have hB : o.inBlock = o'.inBlock := h
    simp only [exec, execBrLoad, hB]; rfl
  | bc1Enc => simp only [exec, execBc1Enc, rgbGrid_congr h]; rfl
  | bc1Dec => simp only [exec, execBc1Dec, lowHalf_congr h]; rfl
  | bc1Quant => simp only [exec, execBc1Quant, colourOf_congr h]; rfl
  | bc1Expand => simp only [exec, execBc1Expand, endpoint0Field_congr h]; rfl
  | bc1Table => simp only [exec, execBc1Table, BitVec.eq_of_toNat_eq h]; rfl
  | bc1Closest =>
    obtain ⟨ha, hb⟩ := h
    simp only [exec, execBc1Closest, BitVec.eq_of_toNat_eq ha, colourOf_congr hb]; rfl
  | bc2Enc =>
    have hT : o.inTex = o'.inTex := h
    simp only [exec, execBc2Enc, hT]; rfl
  | bc2Dec =>
    have hB : o.inBlock = o'.inBlock := h
    simp only [exec, execBc2Dec, hB]; rfl
  | bc7Dec =>
    have hB : o.inBlock = o'.inBlock := h
    simp only [exec, execBc7Dec, hB]
    split <;> rfl
  | bc7Mode => simp only [exec, execBc7Mode, modeOf_congr h]; rfl
  | bc7Part =>
    obtain ⟨hns, hp, hpos⟩ := bc7Part_fields_congr h
    simp only [exec, execBc7Part, hns, hp, hpos]
    split <;> rfl
  | bc7Anchor =>
    obtain ⟨hns, hp, hsub⟩ := bc7Anchor_fields_congr h
    simp only [exec, execBc7Anchor, hns, hp, hsub]
    split <;> rfl
  | bc7Pexp =>
    obtain ⟨hv, hpb⟩ := bc7Pexp_fields_congr h
    simp only [exec, execBc7Pexp, hv, hpb]; rfl
  | bc7Interp =>
    obtain ⟨hstart, hend, hindex, hwidth⟩ := bc7Interp_fields_congr h
    simp only [exec, execBc7Interp, hstart, hend, hindex, hwidth]
    split <;> rfl

/-- Settles O21, from the answers on the two operand tuples (`exec_congr_of_operandsAgree`). -/
theorem unnamedOperandBitsAreIgnored : Obligations.UnnamedOperandBitsAreIgnored := by
  intro i s t o o' ho h
  rw [exec_congr_of_operandsAgree i s o o' ho, h]
  rfl

/-! ### Issuing a command twice (R50) -/

/-- Performing `f` on a state it has answered answers that state again. -/
def Idempotent (f : State → Result) : Prop := ∀ s t, f s = .next t → f t = .next t

@[simp] theorem State.recordStatus_recordStatus (e : Status) (s : State) :
    (s.recordStatus e).recordStatus e = s.recordStatus e := by
  simp [State.recordStatus]

theorem idempotent_raise (e : Status) : Idempotent (raise e) := by
  intro s t h
  cases h
  exact congrArg Host.Outcome.next (State.recordStatus_recordStatus e s)

/-- A command that finishes is idempotent when what it writes does not depend on what it wrote. -/
theorem idempotent_finish (upd : State → State)
    (hupd : ∀ s, upd ((upd s).recordStatus .ok) = (upd s).recordStatus .ok) :
    Idempotent fun s => finish (upd s) := by
  intro s t h
  cases h
  simp only [finish, hupd, State.recordStatus_recordStatus]

/-- A command with an operand check is idempotent when moreover neither of its endings changes what the check finds. -/
theorem idempotent_check (c : State → Prop) [DecidablePred c] (e : Status) (upd : State → State)
    (hraise : ∀ s, c (s.recordStatus e) ↔ c s) (hfinish : ∀ s, c ((upd s).recordStatus .ok) ↔ c s)
    (hupd : ∀ s, upd ((upd s).recordStatus .ok) = (upd s).recordStatus .ok) :
    Idempotent fun s => if c s then raise e s else finish (upd s) := by
  intro s t h
  by_cases hc : c s
  · simp only [if_pos hc] at h
    cases h
    exact (if_pos ((hraise s).2 hc)).trans (idempotent_raise e s _ rfl)
  · simp only [if_neg hc] at h
    cases h
    exact (if_neg (mt (hfinish s).1 hc)).trans (idempotent_finish upd hupd s _ rfl)

/-- `bc7.dec` reads its block and no element of the state, and its block stays on the port (R205). -/
theorem idempotent_bc7Dec : Idempotent (exec .bc7Dec) := by
  intro s t h
  cases hd : bc7Decode s.ports.inBlock with
  | unsupported m =>
    rw [exec_bc7Dec_of_unsupported s m hd] at h
    cases h
    exact exec_bc7Dec_of_unsupported _ m hd
  | decoded m tex p =>
    rw [exec_bc7Dec_of_decoded s m tex p hd] at h
    cases h
    exact exec_bc7Dec_of_decoded _ m tex p hd

/-- The two commands left out advance a cursor they read; every other command writes no element that it reads. -/
theorem idempotent_exec (i : Instr) (hr : ∀ n, i ≠ .brRead n) (hw : ∀ n, i ≠ .bwWrite n) :
    Idempotent (exec i) := by
  cases i with
  | brRead n => exact absurd rfl (hr n)
  | bwWrite n => exact absurd rfl (hw n)
  | bc7Dec => exact idempotent_bc7Dec
  | bc7Part => exact idempotent_check _ _ _ (fun _ => Iff.rfl) (fun _ => Iff.rfl) fun _ => rfl
  | bc7Anchor => exact idempotent_check _ _ _ (fun _ => Iff.rfl) (fun _ => Iff.rfl) fun _ => rfl
  | bc7Interp => exact idempotent_check _ _ _ (fun _ => Iff.rfl) (fun _ => Iff.rfl) fun _ => rfl
  | bc7Enc => exact idempotent_raise .unsupported
  | _ => exact idempotent_finish _ fun _ => by simp only [State.recordStatus]

/-- Settles O23: what a command writes is given by its ports, the parameters and elements it leaves alone, so writing it again changes nothing (`idempotent_exec`). -/
theorem otherCommandsAreIdempotent : Obligations.OtherCommandsAreIdempotent :=
  fun i s t hr hw h => idempotent_exec i hr hw s t h

end Sys2Proof.Machine

/-! The command word's rules (30_encoding.md): decode and encode are inverse, the words that are no command end with ILLEGAL_CMD, and a step performs the word presented next. -/

namespace Sys2Proof.Machine

open Sys2Proof Sys2Proof.Safety

/-! ### Decoding and encoding -/

theorem wellFormed_iff_width_lt (i : Instr) : i.wellFormed = true ↔ i.width < 64 := by
  cases i with
  | brRead n => exact decide_eq_true_iff
  | bwWrite n => exact decide_eq_true_iff
  | _ => simp [Instr.wellFormed, Instr.width]

/-- The fields of a word that decodes are those of its command: `RSV` is 0, and `N` is 0 where the row has none (R61, R63). -/
theorem fields_of_decode_ok (w : CmdWord) (i : Instr) (h : decode w = .ok i) :
    rsvField w = 0 ∧ opField w = i.opcode ∧ nField w = i.width := by
  obtain ⟨hrsv, hrow, hn⟩ := (decode_ok_iff w i).1 h
  obtain ⟨hop, htakes, hplain⟩ := opRow_some _ _ i hrow
  refine ⟨hrsv, hop, ?_⟩
  cases ht : takesWidth (opField w) with
  | true => exact htakes ht
  | false =>
    have hzero : nField w = 0 := hn.resolve_right (by simp [ht])
    rw [hzero, hplain ht]

/-- Settles O1: the word's fields are the command's own (`EncodeFields`), its row is the command (`opRow_self`), and `N` is 0 where the row has none. -/
theorem decodeOfEncodeIsTheCommand : Obligations.DecodeOfEncodeIsTheCommand := by
  intro i hi
  obtain ⟨hrsv, hop, hn⟩ := Laws.EncodeFields.of_toNat i hi
  rw [decode_ok_iff, hop, hn]
  exact ⟨hrsv, opRow_self i, width_zero_or_takes i⟩

/-- Settles O2: a word is its three fields, and those of a word that decodes are its command's (`fields_of_decode_ok`). -/
theorem decodedWordIsItsEncoding : Obligations.DecodedWordIsItsEncoding := by
  intro w i h
  obtain ⟨hrsv, hop, hn⟩ := fields_of_decode_ok w i h
  have hi : i.wellFormed = true := (wellFormed_iff_width_lt i).2 (hn ▸ nField_lt w)
  refine ⟨hi, BitVec.eq_of_toNat_eq ?_⟩
  rw [encode_toNat i hi, toNat_eq_fields w, hrsv, hop, hn, Nat.zero_mul, Nat.zero_add]

/-! ### The words that are no command -/

/-- R63 in the decoder's own fields. -/
theorem illegalFields_iff (w : CmdWord) :
    IllegalFields w ↔ rsvField w ≠ 0 ∨ (nField w ≠ 0 ∧ takesWidth (opField w) = false) := by
  simp [IllegalFields, rsvField_eq, nField_eq, opField_eq, takesWidth]

/-- The 5-bit `OP` values without a row are the eleven R65 reserves: the opcode map is looked up at each of the 32. -/
theorem opRow_eq_none_iff (op n : Nat) (hop : op < 32) : opRow op n = none ↔ op ∈ reservedOps := by
  interval_cases op <;> simp [opRow, reservedOps]

theorem reservedOp_iff (w : CmdWord) : ReservedOp w ↔ opRow (opField w) (nField w) = none := by
  rw [opRow_eq_none_iff _ _ (opField_lt w), opField_eq, ReservedOp]

/-- A word is a command unless R63 or R65 makes it illegal. -/
theorem exists_decode_ok_iff (w : CmdWord) :
    (∃ i, decode w = .ok i) ↔ ¬ (IllegalFields w ∨ ReservedOp w) := by
  have hrow : (∃ i, opRow (opField w) (nField w) = some i) ↔ ¬ ReservedOp w := by
    rw [reservedOp_iff, ← Option.isSome_iff_exists, Option.isSome_iff_ne_none]
  have hfields : ¬ IllegalFields w ↔
      rsvField w = 0 ∧ (nField w = 0 ∨ takesWidth (opField w) = true) := by
    rw [illegalFields_iff]
    by_cases hn : nField w = 0 <;> simp [hn]
  rw [not_or, hfields, ← hrow]
  simp only [decode_ok_iff]
  constructor
  · rintro ⟨i, hrsv, hi, hn⟩
    exact ⟨⟨hrsv, hn⟩, i, hi⟩
  · rintro ⟨⟨hrsv, hn⟩, i, hi⟩
    exact ⟨i, hrsv, hi, hn⟩

/-- A word illegal by R63 or R65 ends with ILLEGAL_CMD and performs nothing else. -/
theorem perform_of_illegal (w : CmdWord) (s : State) (h : IllegalFields w ∨ ReservedOp w) :
    perform w s = .next { s with status := 2, fault := true } := by
  cases hd : decode w with
  | ok i => exact absurd h ((exists_decode_ok_iff w).1 ⟨i, hd⟩)
  | error r => exact perform_of_error w s r hd

/-- Settles O4: such a word is no command (`perform_of_illegal`). -/
theorem nonzeroReservedFieldsAreIllegal : Obligations.NonzeroReservedFieldsAreIllegal :=
  fun w s h => perform_of_illegal w s (.inl h)

/-- Settles O5: a word with a reserved `OP` is no command (`perform_of_illegal`), every other legal word is one (`exists_decode_ok_iff`), and `decode` answers one command at most. -/
theorem reservedOpsAreIllegalAndDecodingIsTotal :
    Obligations.ReservedOpsAreIllegalAndDecodingIsTotal := by
  refine ⟨fun w s h => perform_of_illegal w s (.inr h), fun w => ?_⟩
  rw [← exists_decode_ok_iff]
  refine ⟨ExistsUnique.exists, fun ⟨i, hi⟩ => ⟨i, hi, fun j hj => ?_⟩⟩
  exact Except.ok.inj (hj.symm.trans hi)

/-! ### Concrete words, and the step -/

/-- Settles O3: the decoder evaluates each of the seven words. -/
theorem writtenOutWordsDecode : Obligations.WrittenOutWordsDecode :=
  ⟨rfl, rfl, rfl, rfl, rfl, rfl, rfl⟩

/-- Settles O6, by the two kinds of word a transaction can present. -/
theorem stepRunsTheDecodedCommand : Obligations.StepRunsTheDecodedCommand :=
  fun s c rest hp =>
    ⟨fun i t hd he => step_of_exec s t c rest i hp hd he,
      fun r hd => step_of_illegal s c rest r hp hd⟩

end Sys2Proof.Machine

/-! The bit-stream rules (40_bitstream.md): `nop`, the BitReader's and the BitWriter's commands, and the read-back law. -/

namespace Sys2Proof.Machine

open Sys2Proof Sys2Proof.Safety

/-! ### A command's own word -/

/-- The word `OP + (N << 5)` is the command's and no other word is (R64); with a nonzero reserved field it is illegal (R63). -/
theorem commandWord_of_wellFormed (i : Instr) (hi : i.wellFormed = true) :
    CommandWord i (BitVec.ofNat 16 (i.opcode + i.width * 0x20)) := by
  have hword : BitVec.ofNat 16 (i.opcode + i.width * 0x20) = encode i := by
    rw [Nat.add_comm, ← encode_toNat i hi, BitVec.ofNat_toNat, BitVec.setWidth_eq]
  rw [hword]
  refine ⟨fun v => ⟨fun h => ?_, fun h => ?_⟩, fun v s _ hv => perform_of_illegal v s (.inl hv)⟩
  · exact (decodedWordIsItsEncoding v i h).2.symm
  · rw [h]; exact decodeOfEncodeIsTheCommand i hi

/-! ### The commands one by one -/

theorem exec_nop (s : State) : exec .nop s = .next { s with status := 0 } := finish_eq _

theorem exec_bwEmit (s : State) :
    exec .bwEmit s = .next { s with outBlock := s.bwBuf, status := 0 } := finish_eq _

/-- Settles O24, by `commandWord_of_wellFormed` and `exec_nop`. -/
theorem nopWritesOnlyStatus : Obligations.NopWritesOnlyStatus :=
  ⟨commandWord_of_wellFormed .nop rfl, exec_nop⟩

/-- Settles O25, by `commandWord_of_wellFormed` and `exec_brLoad`. -/
theorem brLoadTakesTheBlockAndRewinds : Obligations.BrLoadTakesTheBlockAndRewinds :=
  ⟨commandWord_of_wellFormed .brLoad rfl, exec_brLoad⟩

/-- Settles O26: the three cases of `execBrRead`, the value read being the sum R43 writes (`wireField_eq`). -/
theorem brReadGivesTheFieldOrFails : Obligations.BrReadGivesTheFieldOrFails := by
  refine ⟨fun n hn => commandWord_of_wellFormed (.brRead n) (decide_eq_true hn), fun n s => ?_⟩
  refine ⟨fun hn hc => ?_, exec_brRead_of_wide n s, exec_brRead_of_overrun n s⟩
  rw [wireField_eq _ _ _ hc]
  exact ⟨brValue_lt _ _ _, exec_brRead_of_fits n s hn hc⟩

/-- Settles O27: the block written is `zeroBlock` (`exec_bwClear`). -/
theorem bwClearZeroesTheWriter : Obligations.BwClearZeroesTheWriter :=
  ⟨commandWord_of_wellFormed .bwClear rfl, fun s =>
    ⟨_, exec_bwClear s, rfl, fun k => Vector.getElem_replicate k.isLt⟩⟩

/-- What `BWWrite` does to every wire bit, in the numbers of R42 (R102). -/
theorem wireBit_bwWrite (B : Block) (cur n v q : Nat) (hn : cur + n ≤ 128) (hq : q < 128) :
    wireBit (bwWrite B cur n v).1 q =
      if cur ≤ q ∧ q < cur + n then v / 2 ^ (n - 1 - (q - cur)) % 2 else wireBit B q := by
  rw [wireBit_eq _ _ hq, wireBit_eq _ _ hq, bitAt_bwWrite B cur n v q hn hq]
  split
  · exact Nat.toNat_testBit _ _
  · rfl

/-- Settles O28: the three cases of `execBwWrite`, the block written being read wire bit by wire bit (`wireBit_bwWrite`). -/
theorem bwWriteAppendsTheFieldOrFails : Obligations.BwWriteAppendsTheFieldOrFails := by
  refine ⟨fun n hn => commandWord_of_wellFormed (.bwWrite n) (decide_eq_true hn), fun n s => ?_⟩
  refine ⟨fun hn hc => ?_, exec_bwWrite_of_wide n s, exec_bwWrite_of_overflow n s⟩
  exact ⟨_, exec_bwWrite_of_fits n s hn hc, rfl, fun q => wireBit_bwWrite _ _ n _ q hc⟩

/-- Settles O29: `exec_bwEmit`, and the tail of the invariant (R24) read as wire bits. -/
theorem bwEmitCopiesTheBlock : Obligations.BwEmitCopiesTheBlock := by
  refine ⟨commandWord_of_wellFormed .bwEmit rfl, fun s => ⟨exec_bwEmit s, fun hs q hcur hq => ?_⟩⟩
  rw [wireBit_eq _ q hq, hs.tail_zero q hcur hq]
  rfl

/-! ### Several fields written one after another (R104) -/

/-- `BWWrite` of each field `(n, v)` in turn, from the cursor `cur`. -/
def bwWriteAll : Block → Nat → List (Nat × Nat) → Block
  | B, _, [] => B
  | B, cur, (n, v) :: fs => bwWriteAll (bwWrite B cur n v).1 (cur + n) fs

/-- Each field is one the commands accept at its cursor (R101, R103), and holds its value. -/
def FieldsFit : Nat → List (Nat × Nat) → Prop
  | _, [] => True
  | cur, (n, v) :: fs => n ≤ 32 ∧ v < 2 ^ n ∧ cur + n ≤ 128 ∧ FieldsFit (cur + n) fs

theorem fieldsFit_of_sum_le (cur : Nat) (fs : List (Nat × Nat))
    (hfs : ∀ f ∈ fs, f.1 ≤ 32 ∧ f.2 < 2 ^ f.1) (hsum : cur + (fs.map Prod.fst).sum ≤ 128) :
    FieldsFit cur fs := by
  induction fs generalizing cur with
  | nil => trivial
  | cons f fs ih =>
    obtain ⟨hf, hrest⟩ := List.forall_mem_cons.1 hfs
    rw [List.map_cons, List.sum_cons] at hsum
    exact ⟨hf.1, hf.2, by omega, ih _ hrest (by omega)⟩

/-- Writing fields leaves the wire bits before them alone. -/
theorem bitAt_bwWriteAll_of_lt (B : Block) (cur q : Nat) (fs : List (Nat × Nat))
    (hfs : FieldsFit cur fs) (hq : q < cur) : bitAt (bwWriteAll B cur fs) q = bitAt B q := by
  induction fs generalizing B cur with
  | nil => rfl
  | cons f fs ih =>
    obtain ⟨-, -, hfit, hrest⟩ := hfs
    calc bitAt (bwWriteAll B cur (f :: fs)) q
        = bitAt (bwWrite B cur f.1 f.2).1 q := ih _ _ hrest (by omega)
      _ = bitAt B q := by
          rw [bitAt_bwWrite _ _ _ _ _ hfit (by omega), if_neg (by omega)]

/-- The first of several fields written reads back: it does when it is written, and the writes after it are past it. -/
theorem brValue_bwWriteAll_cons (B : Block) (cur n v : Nat) (fs : List (Nat × Nat))
    (hfs : FieldsFit cur ((n, v) :: fs)) : brValue (bwWriteAll B cur ((n, v) :: fs)) cur n = v := by
  obtain ⟨-, hv, hfit, hrest⟩ := hfs
  calc brValue (bwWriteAll (bwWrite B cur n v).1 (cur + n) fs) cur n
      = brValue (bwWrite B cur n v).1 cur n :=
        brValue_congr _ _ _ _ fun q _ hq => bitAt_bwWriteAll_of_lt _ _ q fs hrest hq
    _ = v := brValue_bwWrite B cur n v hfit hv

/-- Reading the widths of the fields written gives their values in order (R104). -/
theorem readFields_bwWriteAll (B : Block) (cur : Nat) (fs : List (Nat × Nat))
    (hfs : FieldsFit cur fs) :
    readFields (bwWriteAll B cur fs) cur (fs.map Prod.fst) = fs.map Prod.snd := by
  induction fs generalizing B cur with
  | nil => rfl
  | cons f fs ih =>
    have hhead := brValue_bwWriteAll_cons B cur f.1 f.2 fs hfs
    obtain ⟨-, -, -, hrest⟩ := hfs
    exact congrArg₂ List.cons hhead (ih _ _ hrest)

/-! ### Fields as the digits of a byte -/

/-- A field of `m + n` bits is its first `m` bits above its last `n`. -/
theorem brValue_add (B : Block) (cur m n : Nat) :
    brValue B cur (m + n) = brValue B cur m * 2 ^ n + brValue B (cur + m) n := by
  induction n with
  | zero => simp [brValue]
  | succ n ih =>
    rw [← Nat.add_assoc m n 1, brValue, ih, brValue, ← Nat.add_assoc cur m n, Nat.pow_succ]
    ring

/-- A byte of a block is the field of its eight wire bits (R42, R43). -/
theorem toNat_getElem_eq_brValue (B : Block) (k : Nat) (hk : k < 16) :
    B[k].toNat = brValue B (8 * k) 8 := by
  have hbits : B[k] = BitVec.ofNat 8 (brValue B (8 * k) 8) := by
    refine BitVec.eq_of_getLsbD_eq fun j hj => ?_
    have hbyte : (8 * k + (8 - 1 - j)) / 8 = k := by omega
    have hpos : 7 - (8 * k + (8 - 1 - j)) % 8 = j := by omega
    rw [BitVec.getLsbD_ofNat, testBit_brValue _ _ _ _ hj, bitAt, hbyte, hpos, byteAt_of_lt B k hk,
      decide_eq_true hj, Bool.true_and]
  rw [hbits]
  exact Nat.mod_eq_of_lt (brValue_lt B (8 * k) 8)

/-- The number whose binary digits are the fields, first field on top. -/
def packFields : List (Nat × Nat) → Nat
  | [] => 0
  | (_, v) :: fs => v * 2 ^ (fs.map Prod.fst).sum + packFields fs

/-- Fields written one after another are one wide field. -/
theorem brValue_bwWriteAll (B : Block) (cur : Nat) (fs : List (Nat × Nat))
    (hfs : FieldsFit cur fs) :
    brValue (bwWriteAll B cur fs) cur (fs.map Prod.fst).sum = packFields fs := by
  induction fs generalizing B cur with
  | nil => rfl
  | cons f fs ih =>
    have hhead := brValue_bwWriteAll_cons B cur f.1 f.2 fs hfs
    obtain ⟨-, -, -, hrest⟩ := hfs
    rw [List.map_cons, List.sum_cons, brValue_add, hhead]
    exact congrArg _ (ih _ _ hrest)

/-- Eight bits of fields written at a byte boundary are the byte (R104). -/
theorem toNat_bwWriteAll_byte (B : Block) (k : Nat) (hk : k < 16) (fs : List (Nat × Nat))
    (hfs : FieldsFit (8 * k) fs) (hsum : (fs.map Prod.fst).sum = 8) :
    (bwWriteAll B (8 * k) fs)[k].toNat = packFields fs := by
  have hfield := brValue_bwWriteAll B _ fs hfs
  rw [hsum] at hfield
  rw [toNat_getElem_eq_brValue _ k hk, hfield]

/-- Settles O31: the row's four indices and the two nibbles are fields of one byte (`toNat_bwWriteAll_byte`). -/
theorem bitWriterMakesRowAndAlphaBytes : Obligations.BitWriterMakesRowAndAlphaBytes := by
  intro B k
  constructor
  · intro a b c d
    have hfit : FieldsFit (8 * k.val) [(2, a.val), (2, b.val), (2, c.val), (2, d.val)] := by
      simp only [FieldsFit, and_true]; omega
    refine (toNat_bwWriteAll_byte B k.val k.isLt _ hfit rfl).trans ?_
    simp only [packFields, List.map_cons, List.map_nil, List.sum_cons, List.sum_nil]
    omega
  · intro a b
    have hfit : FieldsFit (8 * k.val) [(4, a.val), (4, b.val)] := by
      simp only [FieldsFit, and_true]; omega
    refine (toNat_bwWriteAll_byte B k.val k.isLt _ hfit rfl).trans ?_
    simp only [packFields, List.map_cons, List.map_nil, List.sum_cons, List.sum_nil]
    omega

/-! ### The host's runs of writes and reads (R104) -/

/-- The fields the host presents, as numbers. -/
def natFields (fs : List (Nat × Scalar)) : List (Nat × Nat) := fs.map fun f => (f.1, f.2.toNat)

@[simp] theorem natFields_map_fst (fs : List (Nat × Scalar)) :
    (natFields fs).map Prod.fst = fs.map Prod.fst := by
  simp [natFields, Function.comp_def]

/-- A step that performs a command the host presents, from what the command answers. -/
theorem run_present (k : Nat) (s t : State) (i : Instr) (o : Operands) (rest : List HostEvent)
    (hi : i.wellFormed = true) (hp : s.pending = present i o :: rest)
    (he : exec i (s.present ⟨encode i, o⟩ rest) = .next t) :
    Sys2Proof.core.run (k + 1) s = Sys2Proof.core.run k { t with ports := Operands.idle } :=
  run_command k s t _ rest i hp (decodeOfEncodeIsTheCommand i hi) he

theorem toNat_cursor (cur n : Nat) (h : cur + n ≤ 128) :
    (BitVec.ofNat 8 (cur + n)).toNat = cur + n :=
  Nat.mod_eq_of_lt (by omega)

/-- Presenting the writes performs `bwWriteAll`, each ending with OK. -/
theorem run_writeFields (fs : List (Nat × Scalar)) (s : State) (cur : Nat)
    (hp : s.pending = writeFields fs) (hcur : s.bwCur.toNat = cur)
    (hfs : FieldsFit cur (natFields fs)) (hst : s.status = 0) :
    ∃ t, Sys2Proof.core.run fs.length s = .next t ∧ t.status = 0 ∧
      t.bwBuf = bwWriteAll s.bwBuf cur (natFields fs) := by
  induction fs generalizing s cur with
  | nil => exact ⟨s, rfl, hst, rfl⟩
  | cons f fs ih =>
    subst hcur
    obtain ⟨hn, -, hfit, hrest⟩ := hfs
    have hwf : (Instr.bwWrite f.1).wellFormed = true := decide_eq_true (by omega)
    rw [List.length_cons, run_present fs.length s _ _ _ _ hwf hp
      (exec_bwWrite_of_fits f.1 _ hn hfit)]
    exact ih _ _ rfl (toNat_cursor _ _ hfit) hrest rfl

/-- Presenting the reads up to the `k`-th gives the `k`-th value of `readFields`, with OK. -/
theorem run_readBack (fs : List (Nat × Scalar)) (k : Nat) (hk : k < fs.length) (s : State)
    (cur : Nat) (hp : s.pending = readBack fs) (hcur : s.brCur.toNat = cur)
    (hfs : FieldsFit cur (natFields fs)) :
    ∃ u, Sys2Proof.core.run (k + 1) s = .next u ∧ u.status = 0 ∧
      u.outVal = BitVec.ofNat 32 ((readFields s.brBuf cur (fs.map Prod.fst)).getD k 0) := by
  induction fs generalizing s cur k with
  | nil => exact absurd hk (Nat.not_lt_zero k)
  | cons f fs ih =>
    subst hcur
    obtain ⟨hn, -, hfit, hrest⟩ := hfs
    have hwf : (Instr.brRead f.1).wellFormed = true := decide_eq_true (by omega)
    rw [run_present k s _ _ _ _ hwf hp (exec_brRead_of_fits f.1 _ hn hfit)]
    cases k with
    | zero => exact ⟨_, rfl, rfl, rfl⟩
    | succ k =>
      exact ih k (Nat.lt_of_succ_lt_succ hk) _ _ rfl (toNat_cursor _ _ hfit) hrest

/-- From any state, `bw.clear` and the writes leave the fields written into a zero block. -/
theorem run_bwClear_writeFields (s : State) (fs : List (Nat × Scalar))
    (hfs : FieldsFit 0 (natFields fs)) :
    ∃ t, Sys2Proof.core.run (fs.length + 1)
        { s with pending := present .bwClear Operands.idle :: writeFields fs } = .next t ∧
      t.status = 0 ∧ t.bwBuf = bwWriteAll zeroBlock 0 (natFields fs) := by
  rw [run_present _ _ _ .bwClear _ _ rfl rfl (exec_bwClear _)]
  exact run_writeFields fs _ 0 rfl rfl hfs rfl

/-- From any state, `br.load` of a block and the reads up to the `k`-th give the block's `k`-th field. -/
theorem run_brLoad_readBack (s : State) (B : Block) (fs : List (Nat × Scalar)) (k : Nat)
    (hk : k < fs.length) (hfs : FieldsFit 0 (natFields fs)) :
    ∃ u, Sys2Proof.core.run (k + 2)
        { s with pending :=
            present .brLoad { Operands.idle with inBlock := B } :: readBack fs } = .next u ∧
      u.status = 0 ∧
      u.outVal = BitVec.ofNat 32 ((readFields B 0 (fs.map Prod.fst)).getD k 0) := by
  rw [run_present (k + 1) _ _ .brLoad _ _ rfl rfl (exec_brLoad _)]
  exact run_readBack fs k hk _ 0 rfl rfl hfs

/-- Settles O30: the writes leave the fields in a cleared block (`run_bwClear_writeFields`), the reads give that block's fields (`run_brLoad_readBack`), and those are the values written (`readFields_bwWriteAll`). -/
theorem writtenFieldsReadBack : Obligations.WrittenFieldsReadBack := by
  intro s fs hfs hsum
  have hfit : FieldsFit 0 (natFields fs) :=
    fieldsFit_of_sum_le 0 _ (List.forall_mem_map.2 hfs) (by simpa using hsum)
  obtain ⟨t, hrun, hst, hbuf⟩ := run_bwClear_writeFields s fs hfit
  refine ⟨t, hrun, hst, fun k hk => ?_⟩
  obtain ⟨u, hread, hu, hval⟩ := run_brLoad_readBack t t.bwBuf fs k hk hfit
  refine ⟨u, hread, hu, hval.trans ?_⟩
  rw [hbuf, ← natFields_map_fst, readFields_bwWriteAll _ _ _ hfit]
  simp [natFields, hk]

end Sys2Proof.Machine

/-! The BC1 rules (41_bc1.md): the quantizer and the expander, the colour table and the nearest index, the block encoder and decoder, and the bounds of what the decoders give. -/

namespace Sys2Proof.Machine

open Sys2Proof Sys2Proof.Config Sys2Proof.Safety

/-! ### Operands and words as numbers (R44, R53, R66) -/

theorem colourOf_r_toNat (x : Scalar) : (colourOf x).r.toNat = x.toNat % 2 ^ 8 := by
  rw [colourOf_eq, BitVec.toNat_ofNat]

theorem colourOf_g_toNat (x : Scalar) : (colourOf x).g.toNat = x.toNat / 2 ^ 8 % 2 ^ 8 := by
  rw [colourOf_eq, BitVec.toNat_ofNat]

theorem colourOf_b_toNat (x : Scalar) : (colourOf x).b.toNat = x.toNat / 2 ^ 16 % 2 ^ 8 := by
  rw [colourOf_eq, BitVec.toNat_ofNat]

theorem endpoint0Field_toNat (a : Scalar) : (endpoint0Field a).toNat = a.toNat % 2 ^ 16 := by
  rw [endpoint0Field_eq, BitVec.toNat_ofNat, Nat.mod_mod]

/-- The two stored bytes of an endpoint word make the word again (R44). -/
theorem littleEndian_bytes_eq_toNat (u : Rgb565) :
    (u.extractLsb' 0 8).toNat + 2 ^ 8 * (u.extractLsb' 8 8).toNat = u.toNat := by
  have hlt := u.isLt
  simp only [BitVec.extractLsb'_toNat, Nat.shiftRight_eq_div_pow]
  omega

/-! ### The quantizer (R121) -/

/-- Fields that do not overlap are ORed as they are added (R120). -/
theorem rgb565_or_eq_add (r g b : Nat) (hg : g < 64) (hb : b < 32) :
    (r <<< 11) ||| (g <<< 5) ||| b = r * 2 ^ 11 + g * 2 ^ 5 + b := by
  have hlow : (g <<< 5) ||| b = g * 2 ^ 5 + b := by
    rw [← Nat.shiftLeft_add_eq_or_of_lt (show b < 2 ^ 5 from hb), Nat.shiftLeft_eq]
  rw [Nat.or_assoc, hlow,
    ← Nat.shiftLeft_add_eq_or_of_lt (show g * 2 ^ 5 + b < 2 ^ 11 by omega), Nat.shiftLeft_eq,
    Nat.add_assoc]

theorem pack565_orOverlap_toNat (c : Rgb8) :
    (pack565 .orOverlap c).toNat =
      (c.r.toNat / 4 * 2 ^ 11 ||| c.g.toNat / 2 * 2 ^ 5 ||| c.b.toNat / 4) % 2 ^ 16 := by
  simp only [pack565, BitVec.toNat_ofNat, Nat.shiftLeft_eq]

/-- Where the mask cuts the quotients, or those of `g` and `b` fit their fields anyway, the word is the sum of the cut quotients (R121). -/
theorem pack565_toNat_of_fits (v : Pack565Variant) (c : Rgb8)
    (h : v = .mask ∨ c.g.toNat / 2 < 64 ∧ c.b.toNat / 4 < 32) :
    (pack565 v c).toNat =
      c.r.toNat / 4 % 32 * 2 ^ 11 + c.g.toNat / 2 % 64 * 2 ^ 5 + c.b.toNat / 4 % 32 := by
  cases v with
  | mask =>
    simp only [pack565, BitVec.toNat_ofNat,
      rgb565_or_eq_add _ _ _ (Nat.mod_lt _ (by decide)) (Nat.mod_lt _ (by decide))]
    omega
  | orOverlap =>
    obtain ⟨hg, hb⟩ := h.resolve_left nofun
    simp only [pack565, BitVec.toNat_ofNat, rgb565_or_eq_add _ _ _ hg hb]
    omega

/-! ### What the BC1 test commands answer (R135 to R138) -/

theorem exec_bc1Quant (s : State) :
    exec .bc1Quant s = .next { s with
      outVal := BitVec.ofNat 32 (pack565 s.params.pack565 (colourOf s.ports.inB)).toNat
      status := 0 } := by
  rw [BitVec.ofNat_toNat]
  exact finish_eq _

theorem exec_bc1Expand (s : State) :
    exec .bc1Expand s = .next { s with
      outVal := packColour (expand565 (endpoint0Field s.ports.inA))
      status := 0 } :=
  finish_eq _

/-- The table of the two endpoint words on `IN_A` (R66, R123). -/
def portTable (s : State) : Vector Rgb8 4 :=
  colourTable s.params.thirds (BitVec.ofNat 16 (s.ports.inA.toNat % 2 ^ 16))
    (BitVec.ofNat 16 (s.ports.inA.toNat / 2 ^ 16))

theorem exec_bc1Table (s : State) :
    exec .bc1Table s = .next { s with outTex := tableGrid (portTable s), status := 0 } := by
  rw [portTable, ← endpoint0Field_eq, ← endpoint1Field_eq]
  exact finish_eq _

theorem exec_bc1Closest (s : State) :
    exec .bc1Closest s = .next { s with
      outVal := BitVec.ofNat 32 (closest (portTable s) (colourOf s.ports.inB)).val
      status := 0 } := by
  rw [portTable, ← endpoint0Field_eq, ← endpoint1Field_eq]
  exact finish_eq _

/-- Settles O32: `OR_OVERLAP` gives its word as it stands (`pack565_orOverlap_toNat`), and wherever `MASK` changes nothing both give the sum of the fields (`pack565_toNat_of_fits`). -/
theorem bc1QuantPacksTheQuotients : Obligations.Bc1QuantPacksTheQuotients := by
  refine ⟨commandWord_of_wellFormed .bc1Quant rfl, fun s => ?_⟩
  simp only [exec_bc1Quant, ← colourOf_r_toNat, ← colourOf_g_toNat, ← colourOf_b_toNat]
  refine ⟨fun hv => ?_, fun hv => ?_⟩
  · rw [hv, pack565_orOverlap_toNat]
  · rw [pack565_toNat_of_fits _ _ hv]

/-- Settles O33: the channels by `expand565_r`, `expand565_g` and `expand565_b`, packed without overlap (`packColour_eq`). -/
theorem bc1ExpandScalesTheFields : Obligations.Bc1ExpandScalesTheFields := by
  refine ⟨commandWord_of_wellFormed .bc1Expand rfl, fun s => ⟨?_, ?_⟩⟩
  · rw [exec_bc1Expand, packColour_eq, expand565_r, expand565_g, expand565_b, endpoint0Field_toNat]
  · omega

/-! ### The colour table on the texel port (R137) -/

theorem getElem_tableGrid_of_lt (T : Vector Rgb8 4) (k : Nat) (hk : k < 4) :
    (tableGrid T)[k] = T[k].withAlpha 0 := by
  simp [tableGrid, hk]

theorem getElem_tableGrid_of_ge (T : Vector Rgb8 4) (k : Nat) (hk : 4 ≤ k) (hk16 : k < 16) :
    (tableGrid T)[k] = ⟨0, 0, 0, 0⟩ := by
  simp [tableGrid, Nat.not_lt.2 hk]

/-- The lanes of the port show no channel above those of the table, and no alpha (R52, R137). -/
theorem tableGrid_le (T : Vector Rgb8 4) (n : Nat) (hT : ∀ j : Fin 4, ChannelsLe n T[j])
    (k : Fin 16) : (tableGrid T)[k].a = 0 ∧ (tableGrid T)[k].r.toNat ≤ n ∧
      (tableGrid T)[k].g.toNat ≤ n ∧ (tableGrid T)[k].b.toNat ≤ n := by
  rcases Nat.lt_or_ge k.val 4 with hk | hk
  · rw [Fin.getElem_fin, getElem_tableGrid_of_lt T k.val hk]
    exact ⟨rfl, hT ⟨k.val, hk⟩⟩
  · rw [Fin.getElem_fin, getElem_tableGrid_of_ge T k.val hk k.isLt]
    exact ⟨rfl, Nat.zero_le n, Nat.zero_le n, Nat.zero_le n⟩

/-- Settles O34: the lanes of `tableGrid`, the two blends not wrapping because no expanded channel exceeds 126 (`blendColour_toNat`). -/
theorem bc1TableBlendsTheEndpoints : Obligations.Bc1TableBlendsTheEndpoints := by
  refine ⟨commandWord_of_wellFormed .bc1Table rfl, fun s => ?_⟩
  intro c0 c1 blend
  have hlane := getElem_tableGrid_of_lt (portTable s)
  have hc0 : ChannelsLe 126 c0 := expand565_le _
  have hc1 : ChannelsLe 126 c1 := expand565_le _
  obtain ⟨hr2, hg2, hb2⟩ := blendColour_toNat s.params.thirds c0 c1 hc0 hc1
  obtain ⟨hr3, hg3, hb3⟩ := blendColour_toNat s.params.thirds c1 c0 hc1 hc0
  have h2 : (tableGrid (portTable s))[2] = (blendColour s.params.thirds c0 c1).withAlpha 0 :=
    hlane 2 (by decide)
  have h3 : (tableGrid (portTable s))[3] = (blendColour s.params.thirds c1 c0).withAlpha 0 :=
    hlane 3 (by decide)
  refine ⟨_, exec_bc1Table s, rfl, hlane 0 (by decide), hlane 1 (by decide), ?_⟩
  simp only [h2, h3, Rgb8.withAlpha]
  exact ⟨hr2, hg2, hb2, hr3, hg3, hb3, tableGrid_le _ 126 (colourTable_le _ _ _),
    fun k hk => getElem_tableGrid_of_ge _ k.val hk k.isLt⟩

/-! ### The nearest index (R125, R126) -/

/-- No two colours are farther apart than black and white (R125). -/
theorem squaredDistance_le (p q : Rgb8) : squaredDistance p q ≤ 195075 := by
  have hr := sqDiff_le p.r q.r
  have hg := sqDiff_le p.g q.g
  have hb := sqDiff_le p.b q.b
  have hsum : colourDist p q ≤ 195075 := by rw [colourDist]; omega
  rw [← colourDist_eq]
  exact_mod_cast hsum

/-- Settles O35: `closest_spec` on the colour of `IN_B`, and `squaredDistance_le`. -/
theorem bc1ClosestIsTheFirstNearest : Obligations.Bc1ClosestIsTheFirstNearest := by
  refine ⟨commandWord_of_wellFormed .bc1Closest rfl, fun s => ⟨?_, fun j => squaredDistance_le _ _⟩⟩
  rw [← colourOf_eq]
  exact ⟨_, closest_spec _ _, exec_bc1Closest s⟩

/-! ### The block encoder (R127 to R129) -/

/-- The model's first minimum of the projected texels is the grid's (R127). -/
theorem minTexel_rgbGrid (tex : TexelGrid) :
    ∃ m : Fin 16, minTexel (rgbGrid tex) = tex[m].rgb ∧ IsFirstMin tex m := by
  obtain ⟨m, hm, hle, hlt⟩ := minTexel_spec (rgbGrid tex)
  simp only [Fin.getElem_fin, getElem_rgbGrid] at hm hle hlt
  exact ⟨m, hm, hle, hlt⟩

theorem maxTexel_rgbGrid (tex : TexelGrid) :
    ∃ m : Fin 16, maxTexel (rgbGrid tex) = tex[m].rgb ∧ IsFirstMax tex m := by
  obtain ⟨m, hm, hle, hlt⟩ := maxTexel_spec (rgbGrid tex)
  simp only [Fin.getElem_fin, getElem_rgbGrid] at hm hle hlt
  exact ⟨m, hm, hle, hlt⟩

theorem getElem_packBc1_row (u0 u1 : Rgb565) (idx : Vector (Fin 4) 16) (r : Fin 4) :
    (packBc1 u0 u1 idx)[4 + r.val] = packRow idx r := by
  fin_cases r <;> rfl

/-- The pair of texel `i` in a packed block is its index (R45, R128). -/
theorem rowPair_packBc1 (u0 u1 : Rgb565) (idx : Vector (Fin 4) 16) (i : Fin 16) :
    rowPair (packBc1 u0 u1 idx)[4 + i.val / 4] (i.val % 4) = idx[i].val := by
  have hpos : 4 * (i.val / 4) + i.val % 4 = i.val := Nat.div_add_mod _ _
  have hrow := getElem_packBc1_row u0 u1 idx ⟨i.val / 4, by omega⟩
  have hpair := rowPair_packRow idx ⟨i.val / 4, by omega⟩ ⟨i.val % 4, by omega⟩
  simp only [hpos] at hrow hpair
  rw [hrow, hpair, Fin.getElem_fin]

/-- Each texel's index in `BC1Encode` is its nearest one (R126, R129). -/
theorem isNearest_bc1Indices (T : Vector Rgb8 4) (tex : TexelGrid) (i : Fin 16) :
    IsNearest T tex[i].rgb (bc1Indices T (rgbGrid tex))[i].val := by
  have hidx : (bc1Indices T (rgbGrid tex))[i] = closest T tex[i].rgb := by simp [bc1Indices]
  rw [hidx]
  exact closest_spec T _

/-- Bytes 8 to 15 of a BC1 result are zero (R51). -/
theorem getElem_joinHalves_zeroBlock8 (lo : Block8) (k : Nat) (hk : 8 ≤ k) (hk16 : k < 16) :
    (joinHalves lo zeroBlock8)[k] = 0 := by
  obtain ⟨j, rfl⟩ := Nat.exists_eq_add_of_le hk
  rw [getElem_joinHalves_high lo zeroBlock8 j (by omega)]
  exact Vector.getElem_replicate _

/-- Settles O36: the endpoints by `minTexel_rgbGrid` and `maxTexel_rgbGrid`, their bytes by `littleEndian_bytes_eq_toNat`, and the indices by `rowPair_packBc1` and `isNearest_bc1Indices`. -/
theorem bc1EncWritesEndpointsAndIndices : Obligations.Bc1EncWritesEndpointsAndIndices := by
  refine ⟨commandWord_of_wellFormed .bc1Enc rfl, fun s => ?_⟩
  obtain ⟨mn, hmn, hmin⟩ := minTexel_rgbGrid s.ports.inTex
  obtain ⟨mx, hmx, hmax⟩ := maxTexel_rgbGrid s.ports.inTex
  refine ⟨_, mn, mx, exec_bc1Enc s, rfl, hmin, hmax, ?_,
    fun k hk => getElem_joinHalves_zeroBlock8 _ k.val hk k.isLt⟩
  simp only [bc1Encode, hmn, hmx]
  refine ⟨littleEndian_bytes_eq_toNat _, littleEndian_bytes_eq_toNat _, fun i => ?_⟩
  rw [getElem_joinHalves_low _ _ _ (by omega), rowPair_packBc1]
  exact isNearest_bc1Indices _ _ i

/-! ### The block decoder (R130) -/

theorem getElem_bc1Decode (P : Params) (B : Block8) (i : Fin 16) :
    (bc1Decode P B)[i.val] = (bc1BlockTable P.thirds B)[bc1Index B i] := by
  simp [bc1Decode]

/-- Settles O37: a texel's index is its row byte's pair (`bc1Index_val`), and the table is that of the little-endian words (`littleEndian16_eq`). -/
theorem bc1DecLooksUpTheIndices : Obligations.Bc1DecLooksUpTheIndices := by
  refine ⟨commandWord_of_wellFormed .bc1Dec rfl, fun s => ⟨_, exec_bc1Dec s, rfl, fun i k hk => ?_⟩⟩
  have hindex : bc1Index (lowHalf s.ports.inBlock) i = k := by
    apply Fin.ext
    rw [bc1Index_val, getElem_lowHalf]
    exact hk
  simp only [Fin.getElem_fin, getElem_zeroAlphaGrid, getElem_bc1Decode, hindex, bc1BlockTable,
    littleEndian16_eq, getElem_lowHalf, Rgb8.withAlpha]

/-! ### Bounds of the decoded texels (R122, R132, R162) -/

theorem bc1Decode_le (P : Params) (B : Block8) (i : Fin 16) : ChannelsLe 126 (bc1Decode P B)[i.val] := by
  rw [getElem_bc1Decode]
  exact colourTable_le _ _ _ _

theorem bc2Nibble_lt (B : Block) (i : Fin 16) : bc2Nibble B i < 16 := by
  have hbyte := B[i.val / 2].isLt
  rw [bc2Nibble, Nat.shiftRight_eq_div_pow]
  split <;> omega

theorem expandAlpha_le (q : Nat) (hq : q < 16) : (expandAlpha q).toNat ≤ 240 :=
  (Nat.mod_le _ _).trans (by omega)

/-- Settles O38: both decoders take their colours from `bc1Decode` (`bc1Decode_le`); `bc1.dec` gives alpha 0 and `bc2.dec` sixteen times a nibble. -/
theorem decodedChannelsStayBelowTheirBounds : Obligations.DecodedChannelsStayBelowTheirBounds := by
  intro i s t hi h k
  rcases List.mem_pair.1 hi with rfl | rfl
  · rw [exec_bc1Dec] at h
    cases h
    obtain ⟨hr, hg, hb⟩ := bc1Decode_le s.params (lowHalf s.ports.inBlock) k
    simp only [Fin.getElem_fin, getElem_zeroAlphaGrid, Rgb8.withAlpha]
    exact ⟨hr, hg, hb, Nat.zero_le _⟩
  · rw [exec_bc2Dec] at h
    cases h
    obtain ⟨hr, hg, hb⟩ := bc1Decode_le s.params (highHalf s.ports.inBlock) k
    have ha := expandAlpha_le _ (bc2Nibble_lt s.ports.inBlock k)
    simp only [bc2Decode, Fin.getElem_fin, Vector.getElem_ofFn, Rgb8.withAlpha]
    exact ⟨hr, hg, hb, ha⟩

end Sys2Proof.Machine

/-! The BC2 rules (42_bc2.md): the alpha bytes and nibbles, the block encoder and decoder over the BC1 colour path, and the alpha round trip. -/

namespace Sys2Proof.Machine

open Sys2Proof Sys2Proof.Config Sys2Proof.Safety

/-! ### The block encoder (R160, R161, R164) -/

/-- Alpha byte `j` holds the nibbles of texels `2j` and `2j + 1` (R161). -/
theorem getElem_alphaHalf_toNat (tex : TexelGrid) (j : Nat) (hj : j < 8) :
    (alphaHalf tex)[j].toNat = 16 * alphaNibble tex[2 * j].a + alphaNibble tex[2 * j + 1].a := by
  rw [alphaHalf, Vector.getElem_ofFn]
  exact alphaByte_toNat _ _ (alphaNibble_lt _) (alphaNibble_lt _)

theorem getElem_bc2Encode_low (P : Params) (tex : TexelGrid) (j : Nat) (hj : j < 8) :
    (bc2Encode P tex)[j] = (alphaHalf tex)[j] :=
  getElem_joinHalves_low _ _ j hj

theorem getElem_bc2Encode_high (P : Params) (tex : TexelGrid) (j : Nat) (hj : j < 8) :
    (bc2Encode P tex)[8 + j] = (bc1Encode P (rgbGrid tex))[j] :=
  getElem_joinHalves_high _ _ j hj

/-- Settles O39: bytes 0 to 7 by `getElem_alphaHalf_toNat`; bytes 8 to 15 are the `bc1Encode` block that `bc1.enc` puts in its bytes 0 to 7. -/
theorem bc2EncWritesAlphaThenTheBc1Block : Obligations.Bc2EncWritesAlphaThenTheBc1Block := by
  refine ⟨commandWord_of_wellFormed .bc2Enc rfl, fun s =>
    ⟨_, _, exec_bc2Enc s, rfl, exec_bc1Enc s, fun j => ⟨?_, ?_⟩⟩⟩
  · rw [getElem_bc2Encode_low _ _ _ j.isLt]
    exact getElem_alphaHalf_toNat _ _ j.isLt
  · rw [getElem_bc2Encode_high _ _ _ j.isLt, getElem_joinHalves_low _ _ _ j.isLt]

/-! ### The block decoder (R162, R165) -/

/-- The high nibble for even texels, the low one for odd ones, by division (R165). -/
theorem bc2Nibble_eq (B : Block) (i : Fin 16) :
    bc2Nibble B i = if i.val % 2 = 0 then B[i.val / 2].toNat / 16 else B[i.val / 2].toNat % 16 := by
  rw [bc2Nibble, Nat.shiftRight_eq_div_pow]

/-- A nibble times 16 does not wrap (R162). -/
theorem expandAlpha_toNat (q : Nat) (hq : q < 16) : (expandAlpha q).toNat = q * 16 := by
  rw [expandAlpha, BitVec.toNat_ofNat]
  exact Nat.mod_eq_of_lt (by omega)

theorem getElem_bc2Decode (P : Params) (B : Block) (i : Fin 16) :
    (bc2Decode P B)[i] =
      (bc1Decode P (highHalf B))[i].withAlpha (expandAlpha (bc2Nibble B i)) := by
  simp [bc2Decode]

theorem bc2Decode_a_toNat (P : Params) (B : Block) (i : Fin 16) :
    (bc2Decode P B)[i].a.toNat = bc2Nibble B i * 16 := by
  rw [getElem_bc2Decode]
  exact expandAlpha_toNat _ (bc2Nibble_lt B i)

/-- Settles O40: the block for `bc1.dec` has the upper half of the `bc2.dec` block as its lower half, so the colours agree; the alpha by `bc2Decode_a_toNat`. -/
theorem bc2DecExpandsAlphaOverTheBc1Colours :
    Obligations.Bc2DecExpandsAlphaOverTheBc1Colours := by
  refine ⟨commandWord_of_wellFormed .bc2Dec rfl, fun s B hB =>
    ⟨_, _, exec_bc2Dec s, rfl, exec_bc1Dec _, fun i => ⟨?_, ?_⟩⟩⟩
  · have hhalf : lowHalf B = highHalf s.ports.inBlock := by
      refine Vector.ext fun k hk => ?_
      rw [getElem_lowHalf, getElem_highHalf]
      exact hB ⟨k, hk⟩
    rw [getElem_bc2Decode, hhalf, Fin.getElem_fin, Fin.getElem_fin, getElem_zeroAlphaGrid]
    rfl
  · rw [bc2Decode_a_toNat, bc2Nibble_eq, Nat.mul_comm]

/-! ### The alpha round trip (R163) -/

/-- The decoder finds each texel's own nibble in an encoded block (R161, R165). -/
theorem bc2Nibble_bc2Encode (P : Params) (tex : TexelGrid) (i : Fin 16) :
    bc2Nibble (bc2Encode P tex) i = alphaNibble tex[i].a := by
  have hbyte := getElem_alphaHalf_toNat tex (i.val / 2) (by omega)
  have hlo := alphaNibble_lt tex[2 * (i.val / 2) + 1].a
  rw [bc2Nibble_eq, getElem_bc2Encode_low _ _ _ (by omega), hbyte, Fin.getElem_fin]
  rcases Nat.mod_two_eq_zero_or_one i.val with heven | hodd
  · have hpos : 2 * (i.val / 2) = i.val := by omega
    rw [if_pos heven]
    simp only [hpos] at hlo ⊢
    omega
  · have hpos : 2 * (i.val / 2) + 1 = i.val := by omega
    rw [if_neg (by omega)]
    simp only [hpos] at hlo ⊢
    omega

/-- Settles O41: sixteen times the nibble the decoder finds (`bc2Decode_a_toNat`), which is the one encoded (`bc2Nibble_bc2Encode`). -/
theorem alphaRoundTripTruncatesToSixteen : Obligations.AlphaRoundTripTruncatesToSixteen := by
  intro s t u ht hu i
  rw [exec_bc2Enc] at ht
  cases ht
  rw [exec_bc2Dec] at hu
  cases hu
  rw [bc2Decode_a_toNat, bc2Nibble_bc2Encode]
  rfl

end Sys2Proof.Machine

/-! The BC7 rules (43_bc7.md): mode detection, the Mode0 decoder against its wire map, partitions and anchors, P-bit expansion and interpolation. -/

namespace Sys2Proof.Machine

open Sys2Proof Sys2Proof.Safety

/-! ### The mode of a block (R180, R181) -/

theorem modeOf_of_byte_range (B : Block) (m : Nat) (hm : m < 8) (hlo : 0x80 / 2 ^ m ≤ B[0].toNat)
    (hhi : B[0].toNat < 0x100 / 2 ^ m) : modeOf B = (m, m + 1) := by
  rw [modeOf_eq]
  exact modeOfByte_spec B[0] ⟨m, hm⟩ hlo hhi

theorem modeOf_of_byte_zero (B : Block) (h : B[0] = 0) : modeOf B = (8, 8) := by
  rw [modeOf_eq, h, modeOfByte_zero]

/-- A nonzero byte below 0x80 has its first 1 bit at one of the positions 1 to 7. -/
theorem exists_mode_of_byte_lt (x : Byte) (hpos : 0 < x.toNat) (hlt : x.toNat < 0x80) :
    ∃ m, 0 < m ∧ m < 8 ∧ 0x80 / 2 ^ m ≤ x.toNat ∧ x.toNat < 0x100 / 2 ^ m := by
  have hx : x.toNat ≠ 0 := Nat.ne_of_gt hpos
  have hlog : Nat.log 2 x.toNat < 7 := Nat.log_lt_of_lt_pow hx hlt
  have hlo : 2 ^ Nat.log 2 x.toNat ≤ x.toNat := Nat.pow_log_le_self 2 hx
  have hhi : x.toNat < 2 ^ (Nat.log 2 x.toNat + 1) := Nat.lt_pow_succ_log_self (by decide) _
  refine ⟨7 - Nat.log 2 x.toNat, by omega, by omega, ?_, ?_⟩
  · rwa [show 0x80 = 2 ^ 7 from rfl, Nat.pow_div (by omega) (by decide),
      Nat.sub_sub_self (by omega)]
  · rwa [show 0x100 = 2 ^ 8 from rfl, Nat.pow_div (by omega) (by decide),
      show 8 - (7 - Nat.log 2 x.toNat) = Nat.log 2 x.toNat + 1 by omega]

/-- The mode tag and the subset count do not overlap (R205, R206). -/
theorem tag_or_subsets_eq_add (m : Nat) (hm : m < 16) :
    m ||| (subsetsOf m <<< 4) = m + 16 * subsetsOf m := by
  rw [Nat.lor_comm, ← Nat.shiftLeft_add_eq_or_of_lt hm, Nat.shiftLeft_eq]
  omega

theorem exec_bc7Mode_of_mode (s : State) (m n : Nat) (hm : m < 16)
    (hmode : modeOf s.ports.inBlock = (m, n)) :
    exec .bc7Mode s = .next { s with
      outVal := BitVec.ofNat 32 (m + 16 * subsetsOf m), status := 0 } := by
  rw [← tag_or_subsets_eq_add m hm]
  simp [exec, execBc7Mode, hmode, finish_eq]

/-- Settles O42: the mode by byte 0's range (`modeOf_of_byte_range`), its count from `SUBSETS`; tag 8 when byte 0 is zero. -/
theorem bc7ModeIsTheFirstOneBit : Obligations.Bc7ModeIsTheFirstOneBit := by
  refine ⟨commandWord_of_wellFormed .bc7Mode rfl, fun s => ⟨fun m hm hlo hhi => ?_, fun h => ?_⟩⟩
  · exact exec_bc7Mode_of_mode s m _ (by omega) (modeOf_of_byte_range _ m hm hlo hhi)
  · exact exec_bc7Mode_of_mode s 8 _ (by decide)
      (modeOf_of_byte_zero _ (BitVec.eq_of_toNat_eq h))

/-! ### The three kinds of block (R183, R197, R204) -/

theorem bc7Decode_of_byte_zero (B : Block) (h : B[0] = 0) :
    bc7Decode B = .decoded 8 zeroTexels 0 := by
  simp [bc7Decode, modeOf_of_byte_zero B h]

theorem bc7Decode_of_byte_lt (B : Block) (hpos : 0 < B[0].toNat) (hlt : B[0].toNat < 0x80) :
    ∃ m, bc7Decode B = .unsupported m := by
  obtain ⟨m, hm0, hm8, hlo, hhi⟩ := exists_mode_of_byte_lt B[0] hpos hlt
  have hne8 : m ≠ 8 := by omega
  have hne0 : m ≠ 0 := by omega
  exact ⟨m, by simp [bc7Decode, modeOf_of_byte_range B m hm8 hlo hhi, hne8, hne0]⟩

theorem bc7Decode_of_byte_ge (B : Block) (h : 0x80 ≤ B[0].toNat) :
    bc7Decode B = decodeMode0 B 1 := by
  simp [bc7Decode, modeOf_of_byte_range B 0 (by decide) h B[0].isLt]

/-- Settles O43, by `bc7Decode_of_byte_zero`. -/
theorem bc7InvalidBlockFallsBackToZero : Obligations.Bc7InvalidBlockFallsBackToZero :=
  fun s h => exec_bc7Dec_of_decoded s 8 zeroTexels 0 (bc7Decode_of_byte_zero _ h)

/-- Settles O44, by `bc7Decode_of_byte_lt`. -/
theorem bc7ModesOneToSevenAreUnsupported : Obligations.Bc7ModesOneToSevenAreUnsupported := by
  intro s hpos hlt
  obtain ⟨m, hm⟩ := bc7Decode_of_byte_lt _ hpos hlt
  exact exec_bc7Dec_of_unsupported s m hm

/-! ### The Mode0 fields at their wire bits (R191, R192, R194) -/

theorem wireField_one (B : Block) (p : Nat) : wireField B p 1 = wireBit B p := by
  simp [wireField]

/-- The partition field of a Mode0 block (R191). -/
def mode0Partition (B : Block) : Nat := wireField B 1 4

/-- The values the Mode0 decoder reads after the partition field (R197). -/
def mode0Fields (B : Block) : List Nat := readFields B 5 (mode0Widths (mode0Partition B))

theorem mode0Partition_lt (B : Block) : mode0Partition B < 16 := by
  rw [mode0Partition, wireField_eq _ _ _ (by decide)]
  exact brValue_lt B 1 4

theorem decodeMode0_eq (B : Block) :
    decodeMode0 B 1 =
      .decoded 0 (Vector.ofFn fun i => mode0Texel (mode0Partition B) (mode0Fields B) i.val)
        (mode0Partition B) := by
  simp only [mode0Fields, mode0Partition, wireField_eq B 1 4 (by decide)]
  rfl

/-- Component `k` of the 18 stands at wire bit `5 + 4 k` (R191). -/
theorem mode0Fields_component (B : Block) (k : Nat) (hk : k < 18) :
    (mode0Fields B).getD k 0 = wireField B (5 + 4 * k) 4 := by
  obtain ⟨hstart, hwidth⟩ := mode0_head_field (mode0Partition B) k (by omega)
  rw [mode0Fields, readFields_getD, hstart, hwidth, if_pos hk, if_pos hk,
    wireField_eq _ _ _ (by omega)]

/-- P-bit `e` stands at wire bit `77 + e` (R191). -/
theorem mode0Fields_pBit (B : Block) (e : Nat) (he : e < 6) :
    (mode0Fields B).getD (18 + e) 0 = wireBit B (77 + e) := by
  obtain ⟨hstart, hwidth⟩ := mode0_head_field (mode0Partition B) (18 + e) (by omega)
  rw [mode0Fields, readFields_getD, hstart, hwidth, if_neg (by omega), if_neg (by omega),
    ← wireField_one, wireField_eq _ _ _ (by omega)]
  congr 1
  omega

/-- The index of texel `i` stands at `start(i)` (R194). -/
theorem mode0Fields_index (B : Block) (i : Nat) (hi : i < 16) :
    (mode0Fields B).getD (24 + i) 0 =
      wireField B (mode0IndexStart (mode0Partition B) i) (mode0IndexBits (mode0Partition B) i) := by
  obtain ⟨hstart, hwidth⟩ := mode0_index_field (mode0Partition B) i hi
  have hfit := (mode0IndexStart_le _ (mode0Partition_lt B)).2 i hi
  rw [mode0Fields, readFields_getD, hstart, hwidth, wireField_eq _ _ _ hfit]

/-! ### A Mode0 texel (R190, R193, R195) -/

/-- Endpoint `e`'s component in plane `c` (0 for R, 1 for G, 2 for B), as it is read and as the wire map has it. -/
theorem pExp_mode0Fields_toNat (B : Block) (c e : Nat) (hc : c < 3) (he : e < 6) :
    (pExp ((mode0Fields B).getD (6 * c + e) 0) ((mode0Fields B).getD (18 + e) 0)).toNat =
      mode0Component B (5 + 24 * c) e := by
  have hcomponent : (mode0Fields B).getD (6 * c + e) 0 = wireField B (5 + 24 * c + 4 * e) 4 := by
    rw [mode0Fields_component _ _ (by omega)]
    congr 1
    omega
  have hv : wireField B (5 + 24 * c + 4 * e) 4 < 16 := by
    rw [wireField_eq _ _ _ (by omega)]
    exact brValue_lt _ _ 4
  have hpb : wireBit B (77 + e) < 2 := Nat.mod_lt _ (by decide)
  rw [hcomponent, mode0Fields_pBit _ _ he, pExp_toNat _ _ hv hpb]
  rfl

theorem part3_lt (p pos : Nat) (hp : p < 64) (hpos : pos < 16) : part3 p pos < 3 :=
  (subsetOf_covers 3 (by decide) p hp).1 pos hpos

/-- The decoded channel of texel `i` in plane `c`: its subset's two endpoints under its index (R193, R195). -/
theorem interp_mode0Fields_toNat (B : Block) (c i s : Nat) (hc : c < 3) (hi : i < 16)
    (hs : s = part3 (mode0Partition B) i) :
    (interp (pExp ((mode0Fields B).getD (6 * c + 2 * s) 0) ((mode0Fields B).getD (18 + 2 * s) 0))
      (pExp ((mode0Fields B).getD (6 * c + (2 * s + 1)) 0)
        ((mode0Fields B).getD (18 + (2 * s + 1)) 0))
      ((mode0Fields B).getD (24 + i) 0) Config.mode0IndexBits).toNat =
      mode0Channel B (5 + 24 * c) i := by
  have hlt : s < 3 := hs ▸ part3_lt _ i (Nat.lt_trans (mode0Partition_lt B) (by decide)) hi
  rw [(interp_toNat _ _ _ _).1, pExp_mode0Fields_toNat B c _ hc (by omega),
    pExp_mode0Fields_toNat B c _ hc (by omega), mode0Fields_index B i hi, hs]
  rfl

/-- Tag 0, three subsets and the partition do not overlap in `OUT_VAL` (R205). -/
theorem mode0_outVal_eq (p : Nat) :
    0 ||| (subsetsOf 0 <<< 4) ||| (p <<< 8) = 0x30 + 2 ^ 8 * p := by
  have htag : 0 ||| (subsetsOf 0 <<< 4) = 0x30 := rfl
  rw [htag, Nat.lor_comm, ← Nat.shiftLeft_add_eq_or_of_lt (show 0x30 < 2 ^ 8 by decide),
    Nat.shiftLeft_eq]
  omega

theorem exec_bc7Dec_of_mode0 (s : State) (h : 0x80 ≤ s.ports.inBlock[0].toNat) :
    exec .bc7Dec s = .next { s with
      outTex := Vector.ofFn fun i =>
        mode0Texel (mode0Partition s.ports.inBlock) (mode0Fields s.ports.inBlock) i.val
      outVal := BitVec.ofNat 32 (0x30 + 2 ^ 8 * mode0Partition s.ports.inBlock)
      status := 0 } := by
  rw [← mode0_outVal_eq]
  exact exec_bc7Dec_of_decoded s _ _ _ ((bc7Decode_of_byte_ge _ h).trans (decodeMode0_eq _))

/-- Settles O45: the sequential reader's fields stand at the wire bits of R191 and R194 (`mode0Fields_component`, `mode0Fields_pBit`, `mode0Fields_index`), so each channel is the wire map's (`interp_mode0Fields_toNat`). -/
theorem bc7DecFollowsTheMode0WireMap : Obligations.Bc7DecFollowsTheMode0WireMap := by
  refine ⟨commandWord_of_wellFormed .bc7Dec rfl, fun s h =>
    ⟨(mode0IndexStart_le _ (mode0Partition_lt _)).1, _, exec_bc7Dec_of_mode0 s h, rfl, fun i => ?_⟩⟩
  simp only [Fin.getElem_fin, Vector.getElem_ofFn]
  have hchannel := fun c hc => interp_mode0Fields_toNat s.ports.inBlock c i.val _ hc i.isLt rfl
  refine ⟨?_, hchannel 1 (by decide), hchannel 2 (by decide), rfl⟩
  have hred := hchannel 0 (by decide)
  simp only [Nat.mul_zero, Nat.zero_add] at hred
  exact hred

/-! ### Partitions (R184, R185, R207) -/

/-- A digit from the left by division (R184). -/
theorem rowDigit_eq (row pos : Nat) : rowDigit row pos = row / 16 ^ (15 - pos) % 16 := by
  rw [rowDigit, Nat.shiftRight_eq_div_pow, Nat.pow_mul]

theorem exec_bc7Part_of_no_subset (s : State) (hns : s.ports.inA.toNat % 2 ^ 2 = 0) :
    exec .bc7Part s = .next { s with status := 3, fault := true } := by
  rw [← subsetCountField_eq] at hns
  simp [exec, execBc7Part, hns]

theorem exec_bc7Part_of_fields (s : State) (ns p pos : Nat) (hns0 : 0 < ns)
    (hns : s.ports.inA.toNat % 2 ^ 2 = ns) (hp : s.ports.inA.toNat / 2 ^ 8 % 2 ^ 6 = p)
    (hpos : s.ports.inA.toNat / 2 ^ 16 % 2 ^ 4 = pos) :
    exec .bc7Part s = .next { s with
      outVal := BitVec.ofNat 32 (subsetOf ns p pos), status := 0 } := by
  rw [← subsetCountField_eq] at hns
  rw [← partitionField_eq] at hp
  rw [← positionField_eq] at hpos
  simp [exec, execBc7Part, hns, hp, hpos, finish_eq, Nat.ne_of_gt hns0]

/-- Settles O46: the one failing case, and the row's digit by division (`rowDigit_eq`). -/
theorem bc7PartReadsThePartitionRow : Obligations.Bc7PartReadsThePartitionRow := by
  refine ⟨commandWord_of_wellFormed .bc7Part rfl, fun s => ⟨exec_bc7Part_of_no_subset s, ?_⟩⟩
  refine ⟨fun h => ?_, fun h => ?_, fun h => ?_⟩
  · exact exec_bc7Part_of_fields s 1 _ _ (by decide) h rfl rfl
  · rw [← rowDigit_eq]
    exact exec_bc7Part_of_fields s 2 _ _ (by decide) h rfl rfl
  · rw [← rowDigit_eq]
    exact exec_bc7Part_of_fields s 3 _ _ (by decide) h rfl rfl

/-- `bc7.part` on the operand word with the fields `ns`, `p` and `pos` (R66, R207). -/
theorem exec_bc7Part_of_operand (s : State) (ns p pos : Nat) (hns0 : 0 < ns) (hns : ns < 4)
    (hp : p < 64) (hpos : pos < 16)
    (ha : s.ports.inA = BitVec.ofNat 32 (ns + 2 ^ 8 * p + 2 ^ 16 * pos)) :
    exec .bc7Part s = .next { s with
      outVal := BitVec.ofNat 32 (subsetOf ns p pos), status := 0 } := by
  have hnat : s.ports.inA.toNat = ns + 2 ^ 8 * p + 2 ^ 16 * pos := by
    rw [ha, BitVec.toNat_ofNat, Nat.mod_eq_of_lt (by omega)]
  exact exec_bc7Part_of_fields s ns p pos hns0 (by omega) (by omega) (by omega)

/-- Settles O47: `bc7.part` gives `SubsetOf` (`exec_bc7Part_of_operand`), whose ROM rows use every subset (`subsetOf_covers`). -/
theorem everyPartitionUsesEverySubset : Obligations.EveryPartitionUsesEverySubset := by
  intro s ns p hns hp answer
  obtain ⟨hlt, honto, hzero⟩ := subsetOf_covers ns (by simpa using hns) p hp
  have hanswer : ∀ pos < 16, answer pos (subsetOf ns p pos) := fun pos hpos =>
    exec_bc7Part_of_operand _ ns p pos (by omega) (by omega) hp hpos rfl
  refine ⟨fun pos hpos => ⟨_, hlt pos hpos, hanswer pos hpos⟩, fun id hid => ?_, ?_⟩
  · obtain ⟨pos, hpos, rfl⟩ := honto id hid
    exact ⟨pos, hpos, hanswer pos hpos⟩
  · have hfirst := hanswer 0 (by decide)
    rwa [hzero] at hfirst

/-! ### Anchors (R186, R187, R208) -/

/-- Subset 0 is anchored at position 0 (R187). -/
theorem anchorOf_subset_zero (ns p : Nat) : anchorOf ns p 0 = 0 := by
  unfold anchorOf
  split <;> simp_all

theorem exec_bc7Anchor_of_ge (s : State)
    (h : s.ports.inA.toNat % 2 ^ 2 ≤ s.ports.inA.toNat / 2 ^ 24 % 2 ^ 2) :
    exec .bc7Anchor s = .next { s with status := 3, fault := true } := by
  rw [← subsetCountField_eq, ← subsetField_eq] at h
  simp [exec, execBc7Anchor, h]

theorem exec_bc7Anchor_of_fields (s : State) (ns p sub : Nat) (hlt : sub < ns)
    (hns : s.ports.inA.toNat % 2 ^ 2 = ns) (hp : s.ports.inA.toNat / 2 ^ 8 % 2 ^ 6 = p)
    (hsub : s.ports.inA.toNat / 2 ^ 24 % 2 ^ 2 = sub) :
    exec .bc7Anchor s = .next { s with
      outVal := BitVec.ofNat 32 (anchorOf ns p sub), status := 0 } := by
  rw [← subsetCountField_eq] at hns
  rw [← partitionField_eq] at hp
  rw [← subsetField_eq] at hsub
  have hcheck : ¬ (ns = 0 ∨ sub ≥ ns) := by omega
  simp only [exec, execBc7Anchor, hns, hp, hsub, if_neg hcheck, finish_eq]

/-- Settles O48: the operand check, then `AnchorOf` for each subset below the count. -/
theorem bc7AnchorReadsTheAnchorRoms : Obligations.Bc7AnchorReadsTheAnchorRoms := by
  refine ⟨commandWord_of_wellFormed .bc7Anchor rfl, fun s => ⟨exec_bc7Anchor_of_ge s, ?_⟩⟩
  refine ⟨fun hns hsub => ?_, fun hns hsub => ?_, fun hns hsub => ?_, fun hns hsub => ?_⟩
  · have h := exec_bc7Anchor_of_fields s _ _ 0 hns rfl rfl hsub
    rwa [anchorOf_subset_zero] at h
  · exact exec_bc7Anchor_of_fields s 2 _ 1 (by decide) hns rfl hsub
  · exact exec_bc7Anchor_of_fields s 3 _ 1 (by decide) hns rfl hsub
  · exact exec_bc7Anchor_of_fields s 3 _ 2 (by decide) hns rfl hsub

/-- `bc7.anchor` on the operand word with the fields `ns`, `p` and `sub` (R66, R208). -/
theorem exec_bc7Anchor_of_operand (s : State) (ns p sub : Nat) (hns : ns < 4) (hp : p < 64)
    (hsub : sub < ns) (ha : s.ports.inA = BitVec.ofNat 32 (ns + 2 ^ 8 * p + 2 ^ 24 * sub)) :
    exec .bc7Anchor s = .next { s with
      outVal := BitVec.ofNat 32 (anchorOf ns p sub), status := 0 } := by
  have hnat : s.ports.inA.toNat = ns + 2 ^ 8 * p + 2 ^ 24 * sub := by
    rw [ha, BitVec.toNat_ofNat, Nat.mod_eq_of_lt (by omega)]
  exact exec_bc7Anchor_of_fields s ns p sub hsub (by omega) (by omega) (by omega)

/-- Settles O49: what `bc7.anchor` gives is `AnchorOf`, a position the partition row has in that subset (`subsetOf_anchorOf`). -/
theorem anchorsLieInTheirOwnSubsets : Obligations.AnchorsLieInTheirOwnSubsets := by
  intro s t ns p sub hns1 hns3 hp hsub ha h
  rw [exec_bc7Anchor_of_operand s ns p sub (by omega) hp hsub ha] at h
  cases h
  have hmem : ns ∈ [1, 2, 3] := by simp; omega
  obtain ⟨hlt, hown⟩ := subsetOf_anchorOf ns hmem p hp sub hsub
  have hval : (BitVec.ofNat 32 (anchorOf ns p sub)).toNat = anchorOf ns p sub := by
    rw [BitVec.toNat_ofNat, Nat.mod_eq_of_lt (by omega)]
  refine ⟨hval.symm ▸ hlt, ?_⟩
  simp only [hval]
  rw [exec_bc7Part_of_operand _ ns p _ hns1 (by omega) hp hlt rfl, hown]

/-! ### P-bit expansion (R190, R209) -/

theorem exec_bc7Pexp (s : State) :
    exec .bc7Pexp s = .next { s with
      outVal := BitVec.ofNat 32
        (pExp (componentField s.ports.inA) (pBitField s.ports.inA)).toNat
      status := 0 } := by
  rw [BitVec.ofNat_toNat]
  exact finish_eq _

/-- Settles O50: the byte `PExp` gives is the sum of its three terms (`pExp_toNat`). -/
theorem bc7PexpPutsThePBitBetween : Obligations.Bc7PexpPutsThePBitBetween := by
  refine ⟨commandWord_of_wellFormed .bc7Pexp rfl, fun s => ?_⟩
  intro v pb
  have hsum : (pExp v pb).toNat = 16 * v + 8 * pb + v / 2 :=
    pExp_toNat v pb (Nat.mod_lt _ (by decide)) (Nat.mod_lt _ (by decide))
  rw [← hsum, exec_bc7Pexp, componentField_eq, pBitField_eq]

/-! ### Interpolation (R188, R189, R210) -/

theorem indexLegal_iff (bits i : Nat) :
    indexLegal bits i = true ↔ (bits = 2 ∨ bits = 3 ∨ bits = 4) ∧ i < 2 ^ bits := by
  simp [indexLegal, or_assoc]

/-- The number `Interp` computes, before it is cut to a byte (R189). -/
def interpValue (e0 e1 i bits : Nat) : Nat :=
  ((64 - weight bits i) * e0 + weight bits i * e1 + roundTerm bits) / 64

theorem exec_bc7Interp_of_illegal (s : State)
    (h : ¬ indexLegal (s.ports.inA.toNat / 2 ^ 24 % 2 ^ 3) (s.ports.inA.toNat / 2 ^ 16 % 2 ^ 4)) :
    exec .bc7Interp s = .next { s with status := 3, fault := true } := by
  rw [← indexWidthField_eq, ← indexField_eq, Bool.not_eq_true] at h
  simp [exec, execBc7Interp, h]

/-- On a legal index `bc7.interp` gives the weighted floor, which fits a byte (R189, R210). -/
theorem exec_bc7Interp_of_legal (s : State) (i bits : Nat)
    (hbits : s.ports.inA.toNat / 2 ^ 24 % 2 ^ 3 = bits)
    (hi : s.ports.inA.toNat / 2 ^ 16 % 2 ^ 4 = i) (h : indexLegal bits i) :
    interpValue (s.ports.inA.toNat % 2 ^ 8) (s.ports.inA.toNat / 2 ^ 8 % 2 ^ 8) i bits ≤ 255 ∧
    exec .bc7Interp s = .next { s with
      outVal := BitVec.ofNat 32
        (interpValue (s.ports.inA.toNat % 2 ^ 8) (s.ports.inA.toNat / 2 ^ 8 % 2 ^ 8) i bits)
      status := 0 } := by
  rw [← indexWidthField_eq] at hbits
  rw [← indexField_eq] at hi
  obtain ⟨hval, hle⟩ := interp_toNat (startField s.ports.inA) (endField s.ports.inA) i bits
  rw [startField_toNat, endField_toNat] at hval hle
  refine ⟨hle, ?_⟩
  rw [interpValue, ← hval, BitVec.ofNat_toNat]
  simp [exec, execBc7Interp, hbits, hi, h, finish_eq]

/-- Settles O51: each legal width by `exec_bc7Interp_of_legal` with its own weight table; every other pair fails the check. -/
theorem bc7InterpWeightsTheEndpoints : Obligations.Bc7InterpWeightsTheEndpoints := by
  refine ⟨commandWord_of_wellFormed .bc7Interp rfl, fun s => ?_⟩
  refine ⟨fun hbits hi => ?_, fun hbits hi => ?_, fun hbits => ?_, fun hbad => ?_⟩
  · exact exec_bc7Interp_of_legal s _ 2 hbits rfl ((indexLegal_iff _ _).2 ⟨by decide, hi⟩)
  · exact exec_bc7Interp_of_legal s _ 3 hbits rfl ((indexLegal_iff _ _).2 ⟨by decide, hi⟩)
  · exact exec_bc7Interp_of_legal s _ 4 hbits rfl
      ((indexLegal_iff _ _).2 ⟨by decide, Nat.mod_lt _ (by decide)⟩)
  · refine exec_bc7Interp_of_illegal s fun hlegal => ?_
    obtain ⟨hwidth, hindex⟩ := (indexLegal_iff _ _).1 hlegal
    rcases hwidth with hw | hw | hw <;> rw [hw] at hbad hindex <;> omega

/-- A weighted floor stays between its two terms when the weights sum to 64 and less than 64 is added (R189). -/
theorem weighted_div_mem_range (a b w r : Nat) (hw : w ≤ 64) (hr : r < 64) :
    min a b ≤ ((64 - w) * a + w * b + r) / 64 ∧ ((64 - w) * a + w * b + r) / 64 ≤ max a b := by
  have hsplit : ∀ c, 64 * c = (64 - w) * c + w * c := fun c => by
    rw [← Nat.add_mul, Nat.sub_add_cancel hw]
  have hmin : 64 * min a b ≤ (64 - w) * a + w * b := by
    rw [hsplit]
    exact Nat.add_le_add (Nat.mul_le_mul_left _ (min_le_left a b))
      (Nat.mul_le_mul_left _ (min_le_right a b))
  have hmax : (64 - w) * a + w * b ≤ 64 * max a b := by
    rw [hsplit]
    exact Nat.add_le_add (Nat.mul_le_mul_left _ (le_max_left a b))
      (Nat.mul_le_mul_left _ (le_max_right a b))
  omega

theorem roundTerm_lt (bits : Nat) : roundTerm bits < 64 := by
  unfold roundTerm
  split <;> decide

/-- Every weight table starts at 0 and ends at 64 (R188). -/
theorem weight_ends (bits : Nat) (h : bits = 2 ∨ bits = 3 ∨ bits = 4) :
    weight bits 0 = 0 ∧ weight bits (2 ^ bits - 1) = 64 := by
  rcases h with rfl | rfl | rfl <;> decide

theorem interpValue_first (e0 e1 bits : Nat) (h : bits = 2 ∨ bits = 3 ∨ bits = 4) :
    interpValue e0 e1 0 bits = e0 := by
  have hr := roundTerm_lt bits
  rw [interpValue, (weight_ends bits h).1]
  omega

theorem interpValue_last (e0 e1 bits : Nat) (h : bits = 2 ∨ bits = 3 ∨ bits = 4) :
    interpValue e0 e1 (2 ^ bits - 1) bits = e1 := by
  have hr := roundTerm_lt bits
  rw [interpValue, (weight_ends bits h).2]
  omega

/-- An answer with status OK was given on a legal index, and is the weighted floor. -/
theorem legal_of_exec_bc7Interp_ok (s t : State) (h : exec .bc7Interp s = .next t)
    (hok : t.status = 0) :
    indexLegal (s.ports.inA.toNat / 2 ^ 24 % 2 ^ 3) (s.ports.inA.toNat / 2 ^ 16 % 2 ^ 4) ∧
    t.outVal.toNat = interpValue (s.ports.inA.toNat % 2 ^ 8) (s.ports.inA.toNat / 2 ^ 8 % 2 ^ 8)
      (s.ports.inA.toNat / 2 ^ 16 % 2 ^ 4) (s.ports.inA.toNat / 2 ^ 24 % 2 ^ 3) := by
  by_cases hlegal :
      indexLegal (s.ports.inA.toNat / 2 ^ 24 % 2 ^ 3) (s.ports.inA.toNat / 2 ^ 16 % 2 ^ 4)
  · obtain ⟨hle, hexec⟩ := exec_bc7Interp_of_legal s _ _ rfl rfl hlegal
    rw [hexec] at h
    cases h
    exact ⟨hlegal, by rw [BitVec.toNat_ofNat, Nat.mod_eq_of_lt (by omega)]⟩
  · rw [exec_bc7Interp_of_illegal s hlegal] at h
    cases h
    exact absurd (show 3#3 = 0#3 from hok) (by decide)

/-- Settles O52: an OK answer is the weighted floor (`legal_of_exec_bc7Interp_ok`), which stays between the endpoints (`weighted_div_mem_range`) and reaches each at its end of the table (`weight_ends`). -/
theorem interpolationStaysBetweenTheEndpoints :
    Obligations.InterpolationStaysBetweenTheEndpoints := by
  intro s t h hok e0 e1 i bits
  obtain ⟨hlegal, hval⟩ := legal_of_exec_bc7Interp_ok s t h hok
  obtain ⟨hwidth, -⟩ := (indexLegal_iff bits i).1 hlegal
  rw [hval]
  obtain ⟨hmin, hmax⟩ := weighted_div_mem_range e0 e1 _ _ (weight_le bits i) (roundTerm_lt bits)
  refine ⟨hmin, hmax, fun hi => ?_, fun hi => ?_⟩
  · exact (congrArg (interpValue e0 e1 · bits) hi).trans (interpValue_first e0 e1 bits hwidth)
  · exact (congrArg (interpValue e0 e1 · bits) hi).trans (interpValue_last e0 e1 bits hwidth)

/-! ### The missing encoder (R211) -/

/-- Settles O53: `bc7.enc` raises UNSUPPORTED whatever the state. -/
theorem bc7EncIsAlwaysUnsupported : Obligations.Bc7EncIsAlwaysUnsupported :=
  ⟨commandWord_of_wellFormed .bc7Enc rfl, raise_unsupported⟩

end Sys2Proof.Machine

/-! The exception rules (60_exceptions.md): nothing stops the CORE, what a failing command writes, which statuses a command ends with and in what order its causes are checked, and the sticky `FAULT`. -/

namespace Sys2Proof.Machine

open Sys2Proof Sys2Proof.Safety

/-! ### Nothing stops the CORE (R243, R244, R253) -/

/-- A command finishes or raises, and both answer a next state. -/
theorem exists_exec_next (i : Instr) (s : State) : ∃ t, exec i s = .next t := by
  rcases exec_cases i s with ⟨-, u, hu, -⟩ | ⟨st, hst, -⟩
  · exact ⟨_, hu⟩
  · exact ⟨_, hst⟩

theorem exists_step_next (s : State) : ∃ t, step s = .next t := by
  rcases step_cases s with
    ⟨-, h⟩ | ⟨rest, -, h⟩ | ⟨c, rest, i, hp, hd, -⟩ | ⟨c, rest, r, -, -, h⟩
  · exact ⟨_, h⟩
  · exact ⟨_, h⟩
  · obtain ⟨t, ht⟩ := exists_exec_next i (s.present c rest)
    exact ⟨_, step_of_exec s t c rest i hp hd ht⟩
  · exact ⟨_, h⟩

/-- Settles O7: a command answers a next state, so each of the four kinds of step does. -/
theorem everyCommandAndStepAnswersANextState :
    Obligations.EveryCommandAndStepAnswersANextState :=
  ⟨exists_exec_next, exists_step_next⟩

/-- Settles O8: `step` has nothing to do when nothing is presented. -/
theorem waitingKeepsTheState : Obligations.WaitingKeepsTheState := by
  intro s hp
  simp only [step, hp]

/-! ### What a performed word does to `STATUS` and `FAULT` (R241, R243) -/

/-- A performed word ends with OK and leaves `FAULT`, or it fails and writes the flags only. -/
theorem perform_flag_cases (w : CmdWord) (s t : State) (h : perform w s = .next t) :
    (t.status = 0 ∧ t.fault = s.fault) ∨
    (t.status ≠ 0 ∧ t = { s with status := t.status, fault := true }) := by
  rcases perform_next_cases w s t h with ⟨i, -, hi⟩ | ⟨r, -, rfl⟩
  · rcases exec_next_cases i s t hi with ⟨-, u, rfl, hf⟩ | ⟨st, hr, rfl⟩
    · exact .inl ⟨rfl, hf.fault_eq⟩
    · exact .inr ⟨isFailure_code_ne_zero st (isFailure_of_raises i st hr), rfl⟩
  · exact .inr ⟨isFailure_code_ne_zero .illegalCmd rfl, rfl⟩

/-- Settles O15: of the two ways a performed word can end, the failing one writes the flags only. -/
theorem failedCommandWritesOnlyStatusAndFault :
    Obligations.FailedCommandWritesOnlyStatusAndFault := by
  intro w s t h hne
  rcases perform_flag_cases w s t h with ⟨hok, -⟩ | ⟨-, ht⟩
  · exact absurd hok hne
  · exact ht

/-! ### The statuses of each command, and the order of its causes (R242, R251) -/

/-- Every command but `bc7.enc` can end with OK. -/
theorem zero_mem_statusesOf (i : Instr) (h : i ≠ .bc7Enc) : 0 ∈ statusesOf i := by
  cases i with
  | bc7Enc => exact absurd rfl h
  | _ => exact List.mem_cons_self

theorem code_mem_statusesOf_of_raises (i : Instr) (st : Status) (h : Raises i st) :
    st.code.toNat ∈ statusesOf i := by
  cases i with
  | brRead n | bwWrite n => rcases h with rfl | rfl <;> simp [statusesOf, Status.code]
  | bc7Dec | bc7Part | bc7Anchor | bc7Interp | bc7Enc => cases h; decide
  | _ => exact h.elim

/-- Settles O16: a finishing command has status OK, a raising one a code its row lists. -/
theorem commandsEndWithTheirListedStatuses : Obligations.CommandsEndWithTheirListedStatuses := by
  intro i s t h
  rcases exec_next_cases i s t h with ⟨hi, u, rfl, -⟩ | ⟨st, hr, rfl⟩
  · exact zero_mem_statusesOf i hi
  · exact code_mem_statusesOf_of_raises i st hr

/-- No row of R251 lists both BR_OVERRUN and BW_OVERFLOW. -/
theorem not_overrun_and_overflow_mem_statusesOf (i : Instr) :
    ¬ (4 ∈ statusesOf i ∧ 5 ∈ statusesOf i) := by
  cases i <;> simp [statusesOf]

/-- A row of R251 with UNSUPPORTED lists neither BAD_OPERAND nor an overrun. -/
theorem le_one_of_unsupported_mem_statusesOf (i : Instr) (h : 1 ∈ statusesOf i) :
    ∀ c ∈ statusesOf i, c ≤ 1 := by
  cases i with
  | bc7Dec | bc7Enc => decide
  | _ => simp [statusesOf] at h

/-- Settles O17: an illegal word is no command, a width above 32 is refused before the cursor is read, and the pairs of causes without an order stand in no row of R251 together (O16). -/
theorem causesHaveTheirPriority : Obligations.CausesHaveTheirPriority := by
  refine ⟨fun w s => ⟨perform_of_illegal w s, ?_, ?_, ?_⟩, fun i s s' t t' h h' => ?_⟩
  · rintro n (hd | hd) hn
    · rw [perform_of_ok w s _ hd, exec_brRead_of_wide n s hn]
    · rw [perform_of_ok w s _ hd, exec_bwWrite_of_wide n s hn]
  · intro n hd hn hc
    rw [perform_of_ok w s _ hd, exec_brRead_of_overrun n s hn hc]
  · intro n hd hn hc
    rw [perform_of_ok w s _ hd, exec_bwWrite_of_overflow n s hn hc]
  · have ht : t.status.toNat ∈ statusesOf i := commandsEndWithTheirListedStatuses i s t h
    have ht' : t'.status.toNat ∈ statusesOf i := commandsEndWithTheirListedStatuses i s' t' h'
    refine ⟨fun ⟨h4, h5⟩ => ?_, fun h1 => ?_⟩
    · rw [h4] at ht
      rw [h5] at ht'
      exact not_overrun_and_overflow_mem_statusesOf i ⟨ht, ht'⟩
    · rw [h1] at ht
      have hle : t'.status.toNat ≤ 1 := le_one_of_unsupported_mem_statusesOf i ht _ ht'
      refine ⟨?_, ?_, ?_⟩ <;> (intro hc; rw [hc] at hle; exact absurd hle (by decide))

/-! ### `FAULT` along steps and runs (R241, R260) -/

/-- A step with a transaction next: `FAULT` is set beside a failing status and kept beside OK. -/
theorem step_command_flags (s t : State) (c : Transaction) (rest : List HostEvent)
    (hp : s.pending = .command c :: rest) (h : step s = .next t) :
    (t.status ≠ 0 → t.fault = true) ∧ (t.status = 0 → t.fault = s.fault) := by
  simp only [step, hp] at h
  obtain ⟨u, hu, rfl⟩ := releasePorts_eq_next _ t h
  rcases perform_flag_cases c.cmd _ u hu with ⟨hok, hf⟩ | ⟨hne, hu'⟩
  · exact ⟨fun hne => absurd hok hne, fun _ => hf⟩
  · exact ⟨fun _ => by rw [hu']; rfl, fun hok => absurd hok hne⟩

/-- What a step can do to `FAULT`: keep it, clear it by reset, or set it by a command that fails. -/
theorem step_fault_cases (s t : State) (h : step s = .next t) :
    t.fault = s.fault ∨
    ((∃ rest, s.pending = .reset :: rest) ∧ t.fault = false) ∨
    ((∃ c rest, s.pending = .command c :: rest) ∧ t.status ≠ 0 ∧ t.fault = true) := by
  rcases step_next_cases s t h with ⟨-, rfl⟩ | ⟨rest, hp, rfl⟩ | ⟨c, rest, u, hp, -, -⟩
  · exact .inl rfl
  · exact .inr (.inl ⟨⟨rest, hp⟩, rfl⟩)
  · obtain ⟨hfail, hok⟩ := step_command_flags s t c rest hp h
    by_cases hst : t.status = 0
    · exact .inl (hok hst)
    · exact .inr (.inr ⟨⟨c, rest, hp⟩, hst, hfail hst⟩)

/-- Only reset clears `FAULT`. -/
theorem reset_pending_of_fault_cleared (s t : State) (h : step s = .next t)
    (hs : s.fault = true) (ht : t.fault = false) : ∃ rest, s.pending = .reset :: rest := by
  rcases step_fault_cases s t h with hkeep | ⟨hreset, -⟩ | ⟨-, -, hset⟩
  · exact absurd (hs.symm.trans (hkeep.symm.trans ht)) (by decide)
  · exact hreset
  · exact absurd (hset.symm.trans ht) (by decide)

/-- Only a command that does not end with OK sets `FAULT`. -/
theorem command_failed_of_fault_set (s t : State) (h : step s = .next t)
    (hs : s.fault = false) (ht : t.fault = true) :
    (∃ c rest, s.pending = .command c :: rest) ∧ t.status ≠ 0 := by
  rcases step_fault_cases s t h with hkeep | ⟨-, hclear⟩ | ⟨hcmd, hne, -⟩
  · exact absurd (hs.symm.trans (hkeep.symm.trans ht)) (by decide)
  · exact absurd (hclear.symm.trans ht) (by decide)
  · exact ⟨hcmd, hne⟩

/-- A run that starts with `FAULT` = 0 and ends with 1 has a step that sets it: by induction on the run's length, the first step does or a later one. -/
theorem exists_fault_set_of_run (k : Nat) (s t : State) (hs : s.fault = false)
    (h : Sys2Proof.core.run k s = .next t) (ht : t.fault = true) :
    ∃ j u v, j < k ∧ Sys2Proof.core.run j s = .next u ∧ step u = .next v ∧
      u.fault = false ∧ v.fault = true := by
  induction k generalizing s with
  | zero =>
    obtain rfl : s = t := Host.Outcome.next.inj h
    exact absurd (hs.symm.trans ht) (by decide)
  | succ k ih =>
    obtain ⟨r, hr⟩ := exists_step_next s
    cases hf : r.fault with
    | true => exact ⟨0, s, r, k.succ_pos, rfl, hr, hs, hf⟩
    | false =>
      rw [run_succ k s r hr] at h
      obtain ⟨j, u, v, hj, hu, hstep⟩ := ih r hf h
      exact ⟨j + 1, u, v, Nat.succ_lt_succ hj, (run_succ j s r hr).trans hu, hstep⟩

/-- Settles O14: a transaction's step sets or keeps `FAULT` by its status, only reset clears it, and the step of a run that sets it performs a failing command. -/
theorem faultIsStickyUntilReset : Obligations.FaultIsStickyUntilReset := by
  refine ⟨step_command_flags, reset_pending_of_fault_cleared, fun k s t hs h ht => ?_⟩
  obtain ⟨j, u, v, hj, hu, hstep, hu0, hv1⟩ := exists_fault_set_of_run k s t hs h ht
  obtain ⟨⟨c, rest, hp⟩, hne⟩ := command_failed_of_fault_set u v hstep hu0 hv1
  exact ⟨j, u, v, c, rest, hj, hu, hp, hstep, hne⟩

end Sys2Proof.Machine

/-! Reset and power-on (70_reset_and_hazards.md). -/

namespace Sys2Proof.Machine

open Sys2Proof

theorem getElem_zeroBlock (k : Fin 16) : zeroBlock[k] = 0 := Vector.getElem_replicate k.isLt

theorem getElem_zeroTexels (k : Fin 16) : zeroTexels[k] = ⟨0, 0, 0, 0⟩ :=
  Vector.getElem_replicate k.isLt

/-- A reset that is the host's next event is taken by the step (R260). -/
theorem step_of_reset (s : State) (rest : List HostEvent) (hp : s.pending = .reset :: rest) :
    step s = .next (s.applyReset rest) := by
  simp only [step, hp]

/-- Settles O10: the blocks and texels of the reset state are the zero ones, and so are its scalars. -/
theorem powerOnElementsAreZero : Obligations.PowerOnElementsAreZero :=
  ⟨fun k => ⟨getElem_zeroBlock k, getElem_zeroBlock k, getElem_zeroBlock k, getElem_zeroTexels k⟩,
    State.reset_brCur, State.reset_bwCur, State.reset_outVal, State.reset_status,
    State.reset_fault⟩

/-- Settles O9: `applyReset` gives every element of R22 its power-on value (O10), and only the parameters and the pending events are not the reset state's. -/
theorem resetZeroesEveryElement : Obligations.ResetZeroesEveryElement := by
  intro s rest hp
  obtain ⟨hlanes, hbrCur, hbwCur, houtVal, hstatus, hfault⟩ := powerOnElementsAreZero
  exact ⟨s.applyReset rest, step_of_reset s rest hp, hlanes, hbrCur, hbwCur, houtVal, hstatus,
    hfault, State.applyReset_params rest s, State.applyReset_pending rest s⟩

end Sys2Proof.Machine
